-- ==== Sys2Proof/Word.lean ====
section
/-! DEFINITION. The word types of the WOB: bytes, 32-bit words, 64-bit command words and binary32 patterns. -/

namespace Sys2Proof

/-- A byte of a serialized command word (`20_memory.md` R43). -/
abbrev Byte := BitVec 8

/-- An R-port word or an R-port word address (R47). -/
abbrev Word32 := BitVec 32

/-- A command word (R60). -/
abbrev Word64 := BitVec 64

/-- An IEEE 754 binary32 value, held as its bit pattern (`00_scope.md` R12): bit 31 is the sign, bits 30..23 the
exponent, bits 22..0 the fraction. `bits32(x)` and `f32bits(u)` of the spec are therefore both the identity. -/
abbrev F32 := BitVec 32

end Sys2Proof
end

