-- ==== Sys2Proof/Syntax.lean ====
section
/-! DEFINITION. The command set of `30_encoding.md` R63, one constructor per row of opcode_table.json, with the ports, the
reasons a word is rejected, and the pseudo-instructions of R71. -/

namespace Sys2Proof

/-- The two write ports (`20_memory.md` R39). -/
inductive Port where
  /-- The host's command port. -/
  | c
  /-- The control agent's parameter port. -/
  | p
deriving DecidableEq, Repr

/-- The seventeen opcodes of R63. -/
inductive Opcode where
  | nop
  | prepare
  | noteOn
  | noteOff
  | render
  | setAttack
  | setDecay
  | setSustain
  | setRelease
  | setCutoff
  | setResonance
  | setLfoRate
  | setLfoDepth
  | setUnison
  | setDetune
  | setWaveform
  | setVolume
deriving DecidableEq, Repr

/-- The commands of R63. An integer operand is the `int` that R62 reads from its field; an f32 operand is the binary32
pattern of its field, NaN patterns and infinities included. -/
inductive Instr where
  | nop
  | prepare (fs : F32) (maxBlock : Nat)
  | noteOn (note : Nat) (velocity : F32)
  | noteOff (note : Nat) (velocity : F32)
  | render (frames : Nat)
  | setAttack (seconds : F32)
  | setDecay (seconds : F32)
  | setSustain (level : F32)
  | setRelease (seconds : F32)
  | setCutoff (hz : F32)
  | setResonance (q : F32)
  | setLfoRate (radPerSec : F32)
  | setLfoDepth (hz : F32)
  | setUnison (size : Nat)
  | setDetune (semitones : F32)
  | setWaveform (sel : Nat)
  | setVolume (gain : F32)
deriving DecidableEq, Repr

/-- The ten conditions of `60_exceptions.md` R183, in its order. They are labels, not state (R182). -/
inductive Rejection where
  | reservedOpcode
  | wrongPort
  | reservedField
  | rateNotPositive
  | rateOutOfRange
  | blockNotPositive
  | noteOutOfRange
  | velocityNaN
  | nonFinitePayload
  | selectorOutOfRange
deriving DecidableEq, Repr

/-- The pseudo-instructions of R71. -/
inductive Pseudo where
  | setAdsr (a d s r : F32)
  | setFilter (c q : F32)
  | setLfo (rate depth : F32)
  | setUnisonDetune (n : Nat) (d : F32)
  | silence (n : Nat)
deriving DecidableEq, Repr

end Sys2Proof
end

