-- ==== Sys2Proof/WellFormed.lean ====
section
/-! DEFINITION. Which terms of `Instr` a command word can carry: every integer operand fits its field (`30_encoding.md` R60,
R62; R69 says the assembler refuses one that does not). Every f32 pattern fits its field. -/

namespace Sys2Proof

/-- `A8` is an unsigned 8-bit field (R60). -/
def fitsA8 (n : Nat) : Bool := decide (n < 2 ^ 8)

/-- `U16` is an unsigned 16-bit field (R60). -/
def fitsU16 (n : Nat) : Bool := decide (n < 2 ^ 16)

/-- Every operand fits the field R63 gives it. -/
def Instr.wf : Instr → Bool
  | .nop => true
  | .prepare _ maxBlock => fitsU16 maxBlock
  | .noteOn note _ => fitsA8 note
  | .noteOff note _ => fitsA8 note
  | .render frames => fitsU16 frames
  | .setAttack _ => true
  | .setDecay _ => true
  | .setSustain _ => true
  | .setRelease _ => true
  | .setCutoff _ => true
  | .setResonance _ => true
  | .setLfoRate _ => true
  | .setLfoDepth _ => true
  | .setUnison size => fitsU16 size
  | .setDetune _ => true
  | .setWaveform sel => fitsA8 sel
  | .setVolume _ => true

end Sys2Proof
end

