-- ==== Sys2Proof/Decode.lean ====
section
/-! DEFINITION. Decoding, total on every 64-bit word of each port and rejecting by name (`30_encoding.md` R60 to R68), the
encoder, and the byte serialization of `20_memory.md` R43. -/

namespace Sys2Proof

/-- `OPC`, bits 7..0 (R60). -/
def opcField (w : Word64) : Byte := w.extractLsb' 0 8

/-- `A8`, bits 15..8 (R60). -/
def a8Field (w : Word64) : Byte := w.extractLsb' 8 8

/-- `U16`, bits 31..16 (R60). -/
def u16Field (w : Word64) : BitVec 16 := w.extractLsb' 16 16

/-- `F32`, bits 63..32 (R60). -/
def f32Field (w : Word64) : F32 := w.extractLsb' 32 32

/-- A command word from its four fields, `F32` highest (R60, R11). -/
def packWord (opc : Byte) (a8 : Byte) (u16 : BitVec 16) (x : F32) : Word64 := x ++ u16 ++ a8 ++ opc

/-- Every opcode, in the order of R63. -/
def allOpcodes : List Opcode :=
  [.nop, .prepare, .noteOn, .noteOff, .render, .setAttack, .setDecay, .setSustain, .setRelease, .setCutoff,
   .setResonance, .setLfoRate, .setLfoDepth, .setUnison, .setDetune, .setWaveform, .setVolume]

/-- The `OPC` column of R63. -/
def opcodeByte : Opcode → Byte
  | .nop => 0x00
  | .prepare => 0x01
  | .noteOn => 0x02
  | .noteOff => 0x03
  | .render => 0x04
  | .setAttack => 0x10
  | .setDecay => 0x11
  | .setSustain => 0x12
  | .setRelease => 0x13
  | .setCutoff => 0x14
  | .setResonance => 0x15
  | .setLfoRate => 0x16
  | .setLfoDepth => 0x17
  | .setUnison => 0x18
  | .setDetune => 0x19
  | .setWaveform => 0x1A
  | .setVolume => 0x1B

/-- The opcode an `OPC` byte names; none for a reserved one (R66). -/
def opcodeOfByte (b : Byte) : Option Opcode := allOpcodes.find? fun o => opcodeByte o == b

/-- The `port` column of R63 (R65): NOP is legal on both. -/
def legalOn : Opcode → Port → Bool
  | .nop, _ => true
  | .prepare, q | .noteOn, q | .noteOff, q | .render, q => q == .c
  | .setAttack, q | .setDecay, q | .setSustain, q | .setRelease, q | .setCutoff, q | .setResonance, q
  | .setLfoRate, q | .setLfoDepth, q | .setUnison, q | .setDetune, q | .setWaveform, q | .setVolume, q => q == .p

/-- The mask of the bits that must match (R64): the opcode byte and every reserved field. -/
def matchMask : Opcode → Word64
  | .nop => 0xFFFFFFFFFFFFFFFF
  | .prepare => 0x000000000000FFFF
  | .noteOn | .noteOff => 0x00000000FFFF00FF
  | .render | .setUnison => 0xFFFFFFFF0000FFFF
  | .setWaveform => 0xFFFFFFFFFFFF00FF
  | .setAttack | .setDecay | .setSustain | .setRelease | .setCutoff | .setResonance | .setLfoRate | .setLfoDepth
  | .setDetune | .setVolume => 0x00000000FFFFFFFF

/-- `ReservedMask(opc)` of R68: the R64 mask with the opcode byte removed. -/
def reservedMask (o : Opcode) : Word64 := matchMask o &&& 0xFFFFFFFFFFFFFF00

/-- The command an opcode and the fields name (R62, R63). -/
def assemble (o : Opcode) (a8 : Byte) (u16 : BitVec 16) (x : F32) : Instr :=
  match o with
  | .nop => .nop
  | .prepare => .prepare x u16.toNat
  | .noteOn => .noteOn a8.toNat x
  | .noteOff => .noteOff a8.toNat x
  | .render => .render u16.toNat
  | .setAttack => .setAttack x
  | .setDecay => .setDecay x
  | .setSustain => .setSustain x
  | .setRelease => .setRelease x
  | .setCutoff => .setCutoff x
  | .setResonance => .setResonance x
  | .setLfoRate => .setLfoRate x
  | .setLfoDepth => .setLfoDepth x
  | .setUnison => .setUnison u16.toNat
  | .setDetune => .setDetune x
  | .setWaveform => .setWaveform a8.toNat
  | .setVolume => .setVolume x

/-- `Decode(word, port)` of R68, its checks in that rule's order. -/
def decode (port : Port) (w : Word64) : Except Rejection Instr :=
  match opcodeOfByte (opcField w) with
  | none => .error .reservedOpcode
  | some o =>
    if legalOn o port = false then .error .wrongPort
    else if w &&& reservedMask o ≠ 0 then .error .reservedField
    else .ok (assemble o (a8Field w) (u16Field w) (f32Field w))

/-- A command's opcode. -/
def instrOpcode : Instr → Opcode
  | .nop => .nop
  | .prepare _ _ => .prepare
  | .noteOn _ _ => .noteOn
  | .noteOff _ _ => .noteOff
  | .render _ => .render
  | .setAttack _ => .setAttack
  | .setDecay _ => .setDecay
  | .setSustain _ => .setSustain
  | .setRelease _ => .setRelease
  | .setCutoff _ => .setCutoff
  | .setResonance _ => .setResonance
  | .setLfoRate _ => .setLfoRate
  | .setLfoDepth _ => .setLfoDepth
  | .setUnison _ => .setUnison
  | .setDetune _ => .setDetune
  | .setWaveform _ => .setWaveform
  | .setVolume _ => .setVolume

/-- The word of a command (R60, R63): a field the command does not use is zero (R64). -/
def encode : Instr → Word64
  | .nop => packWord (opcodeByte .nop) 0 0 0
  | .prepare fs maxBlock => packWord (opcodeByte .prepare) 0 (BitVec.ofNat 16 maxBlock) fs
  | .noteOn note v => packWord (opcodeByte .noteOn) (BitVec.ofNat 8 note) 0 v
  | .noteOff note v => packWord (opcodeByte .noteOff) (BitVec.ofNat 8 note) 0 v
  | .render n => packWord (opcodeByte .render) 0 (BitVec.ofNat 16 n) 0
  | .setAttack x => packWord (opcodeByte .setAttack) 0 0 x
  | .setDecay x => packWord (opcodeByte .setDecay) 0 0 x
  | .setSustain x => packWord (opcodeByte .setSustain) 0 0 x
  | .setRelease x => packWord (opcodeByte .setRelease) 0 0 x
  | .setCutoff x => packWord (opcodeByte .setCutoff) 0 0 x
  | .setResonance x => packWord (opcodeByte .setResonance) 0 0 x
  | .setLfoRate x => packWord (opcodeByte .setLfoRate) 0 0 x
  | .setLfoDepth x => packWord (opcodeByte .setLfoDepth) 0 0 x
  | .setUnison n => packWord (opcodeByte .setUnison) 0 (BitVec.ofNat 16 n) 0
  | .setDetune x => packWord (opcodeByte .setDetune) 0 0 x
  | .setWaveform sel => packWord (opcodeByte .setWaveform) (BitVec.ofNat 8 sel) 0 0
  | .setVolume x => packWord (opcodeByte .setVolume) 0 0 x

/-- Little-endian serialization (R43): the first byte is bits 7..0, the opcode. -/
def wordBytes (w : Word64) : List Byte :=
  [w.extractLsb' 0 8, w.extractLsb' 8 8, w.extractLsb' 16 8, w.extractLsb' 24 8,
   w.extractLsb' 32 8, w.extractLsb' 40 8, w.extractLsb' 48 8, w.extractLsb' 56 8]

/-- The first whole word of a byte stream and the bytes after it; none where no whole word is left (R45, R61). -/
def takeWord : List Byte → Option (Word64 × List Byte)
  | b0 :: b1 :: b2 :: b3 :: b4 :: b5 :: b6 :: b7 :: rest =>
    some (b7 ++ b6 ++ b5 ++ b4 ++ b3 ++ b2 ++ b1 ++ b0, rest)
  | _ => none

/-- Decoding of serialized words: the verdict on the first word, and the bytes after it. -/
def decodeBytes (port : Port) (bs : List Byte) : Option (Except Rejection Instr × List Byte) :=
  (takeWord bs).map fun r => (decode port r.1, r.2)

/-- The port a row of opcode_table.json is read on: the C-port, or the P-port where the C-port rejects the word. -/
def tablePort (w : Word64) : Port :=
  match decode .c w with
  | .ok _ => .c
  | .error _ =>
    match decode .p w with
    | .ok _ => .p
    | .error _ => .c

/-- The word of a table row whose `nbits` low bits are `w`; every higher bit is 0. -/
def tableWord (nbits w : Nat) : Word64 := BitVec.ofNat 64 (w % 2 ^ nbits)

/-- The instruction the decoder reads from the serialized bytes of a table row's word, on the port its row names. -/
def decodeTableWord (nbits w : Nat) : Option Instr :=
  match decodeBytes (tablePort (tableWord nbits w)) (wordBytes (tableWord nbits w)) with
  | some (.ok i, _) => some i
  | _ => none

end Sys2Proof
end

