-- ==== Sys2Proof/Config.lean ====
section
/-! DEFINITION. What an implementation fixes (the parameters of `00_scope.md` R9) and the free values: what the spec
leaves open, as constants without a body. -/

namespace Sys2Proof

/-- The parameter `TRANSCENDENTAL` (R9): `cr` is correctly rounded; `anyAllowed` is the other admissible choice, an opaque
function of which only the properties of R19 are known. -/
inductive Transcendental where
  | cr
  | anyAllowed
deriving DecidableEq, Repr

/-- The implementation parameters of R9. The note range and the waveform count are fixed and need no field. -/
structure Params where
  /-- `TABLE_LEN`, `L`: samples per waveform table. -/
  tableLen : Nat
  /-- `POOL_SIZE`, `P`: voices in the pool. -/
  poolSize : Nat
  /-- `UNISON_MAX`, `UMAX`: largest unison size. -/
  unisonMax : Nat
  /-- `NUM_CHANNELS`, `CH`: channels per output frame. -/
  numChannels : Nat
  /-- `ENV_EPSILON`: release level below which a voice is freed. -/
  envEpsilon : F32
  /-- `FS_MIN`: smallest accepted sample rate, Hz. -/
  fsMin : F32
  /-- `FS_MAX`: largest accepted sample rate, Hz. -/
  fsMax : F32
  /-- `DETUNE_MAX`: largest detune, semitones. -/
  detuneMax : F32
  /-- `NYQ_GUARD`: largest filter design frequency as a fraction of the sample rate. -/
  nyqGuard : F32
  /-- `TRANSCENDENTAL`: how `fsin`, `fcos`, `fexp2` round. -/
  transcendental : Transcendental
deriving DecidableEq, Repr

/-- The defaults of R9. -/
def Params.default : Params where
  tableLen := 1024
  poolSize := 16
  unisonMax := 8
  numChannels := 2
  envEpsilon := 0x38D1B717#32
  fsMin := 0x447A0000#32
  fsMax := 0x493B8000#32
  detuneMax := 0x41400000#32
  nyqGuard := 0x3EFAE148#32
  transcendental := .cr

/-- Which operation produced a NaN; only the argument of the free value `Config.nanPattern`. -/
inductive NaNSource where
  | add
  | sub
  | mul
  | div
deriving DecidableEq, Repr

/-- FREE VALUE (assumption log 8). The bit pattern of the NaN an operation answers, from its operands. No rule fixes it, and
`93_implementation_defined.md` row 23 says no NaN pattern is ever observable. -/
opaque Config.nanPattern : NaNSource → F32 → F32 → Word32

/-- FREE VALUE (assumption log 9). `fmod(x, m)` outside the domain R14 gives it (finite `x ≥ 0`, finite `m > 0`). -/
opaque Config.fmodOutside : F32 → F32 → F32

/-- FREE VALUE (assumption log 9). `roundHalfUp` of an infinity or a NaN, of which R14 gives no value. -/
opaque Config.roundOutside : F32 → Int

/-- FREE VALUE (assumption logs 10 and 15). `fsin`: the opaque choice before R19 limits it, and the value at a NaN or an
infinity under either choice. -/
opaque Config.freeSin : F32 → F32

/-- FREE VALUE (assumption logs 10 and 15). As `Config.freeSin`, for `fcos`. -/
opaque Config.freeCos : F32 → F32

/-- FREE VALUE (assumption logs 10 and 15). As `Config.freeSin`, for `fexp2`. -/
opaque Config.freeExp2 : F32 → F32

end Sys2Proof
end

