-- ==== Sys2Proof/Machine/State.lean ====
section
/-! DEFINITION. The architectural state of the WOB (`10_state.md`), what the environment around it holds, and the state
right after reset (`70_reset_and_hazards.md` R195). -/

namespace Sys2Proof.Machine

/-- The waveform selectors 0 to 3 (`40_wavetable.md` R75). -/
inductive Waveform where
  | sine
  | square
  | triangle
  | sawtooth
deriving DecidableEq, Repr

/-- The envelope stages 0 to 4 (`10_state.md` R32); 5 to 7 are never held. -/
inductive Stage where
  | idle
  | attack
  | decay
  | sustain
  | release
deriving DecidableEq, Repr

/-- The configuration registers (R25). -/
structure CfgRegs where
  /-- `CFG.PREPARED`. -/
  prepared : Bool
  /-- `CFG.FS`. -/
  fs : F32
  /-- `CFG.MAX_BLOCK`. -/
  maxBlock : Nat
deriving DecidableEq, Repr

/-- A parameter bank (R27, R28); `ratio` is the array `RATIO[0..UNISON_MAX-1]`. -/
structure Bank where
  attack : F32
  decay : F32
  sustain : F32
  release : F32
  cutoff : F32
  resonance : F32
  lfoRate : F32
  lfoDepth : F32
  unison : Nat
  detune : F32
  waveform : Waveform
  volume : F32
  ratio : List F32
deriving DecidableEq, Repr

/-- A voice unit (R31, R32, R33). -/
structure Voice where
  active : Bool
  note : Nat
  velocity : F32
  phase : F32
  stage : Stage
  level : F32
  relStart : F32
  lfoPhase : F32
  cutoffEff : F32
  b0 : F32
  b1 : F32
  b2 : F32
  a1 : F32
  a2 : F32
  x1 : F32
  x2 : F32
  y1 : F32
  y2 : F32
deriving DecidableEq, Repr

/-- The three agents that take steps (`20_memory.md` R53). -/
inductive Agent where
  | renderer
  | control
  | host
deriving DecidableEq, Repr

/-- A move of the host or of the control agent (`70_reset_and_hazards.md` R207): write a word to its port, or read an R-port
address. -/
inductive Move where
  | write (word : Word64)
  | read (addr : Word32)
deriving DecidableEq, Repr

/-- An answered R-port read: who read, which address, which word it got (R45). -/
structure Answer where
  reader : Agent
  addr : Word32
  word : Word32
deriving DecidableEq, Repr

/-- One output frame: `NUM_CHANNELS` samples (R42). -/
abbrev Frame := List F32

/-- The state. `params` to `pPos` are the WOB's own; `cPort` to `answers` are what its environment holds. -/
structure State where
  /-- The implementation parameters (`00_scope.md` R9); no step changes them. -/
  params : Params
  /-- The configuration registers (R25). -/
  cfg : CfgRegs
  /-- The bank the setters write (R26). -/
  shadow : Bank
  /-- The bank the renderer reads (R26). -/
  active : Bank
  /-- The pool `V[0..P-1]` (R31). -/
  voices : List Voice
  /-- `FRAMES_LEFT` (R36). -/
  framesLeft : Nat
  /-- The frames of a silent block (`45_engine.md` R158) still to be emitted. The model's own field (assumption log 6): R158 leaves
  `FRAMES_LEFT` as it is, and the renderer emits these one per step. -/
  silentLeft : Nat
  /-- The C-port's stream position (R22). -/
  cPos : Nat
  /-- The P-port's stream position (R22). -/
  pPos : Nat
  /-- Words written to the C-port and not yet taken by the renderer, oldest first (R40). -/
  cPort : List Word64
  /-- The moves the host will make, next first. -/
  hostScript : List Move
  /-- The moves the control agent will make, next first. -/
  controlScript : List Move
  /-- The agents that step next (R55: the order is the scheduler's free choice); `nextAgent` says who steps when it is
  empty. -/
  turns : List Agent
  /-- The frames emitted so far, oldest first: the host's received stream (R38, R210). -/
  output : List Frame
  /-- The R-port reads answered so far, oldest first. -/
  answers : List Answer
deriving DecidableEq, Repr

/-- No fault exists: the WOB raises no exception (`60_exceptions.md` R181, R187), so the type has no constructor, nothing
raises one, and that is exact (neither safe nor unsafe by choice). -/
inductive Fault where
deriving DecidableEq, Repr

/-- Why an instruction has no meaning. -/
inductive Refusal where
  /-- Raised only by an arm of `exec` whose instruction has no meaning yet (none is left); safe, since the machine stops
  where the hardware goes on. -/
  | notModelled (mnemonic : String)
deriving DecidableEq, Repr

/-- The reset value of both banks (R27, R28, R195). -/
def Bank.reset (p : Params) : Bank where
  attack := 0x3DCCCCCD#32
  decay := 0x3DCCCCCD#32
  sustain := 0x3F800000#32
  release := 0x3DCCCCCD#32
  cutoff := 0x469C4000#32
  resonance := 0x3F3504F3#32
  lfoRate := 0#32
  lfoDepth := 0#32
  unison := 1
  detune := 0#32
  waveform := .sine
  volume := 0x3F800000#32
  ratio := 0x3F800000#32 :: List.replicate (p.unisonMax - 1) 0#32

/-- The reset value of a voice unit (R31 to R33, R195). -/
def Voice.reset : Voice where
  active := false
  note := 0
  velocity := 0#32
  phase := 0#32
  stage := .idle
  level := 0#32
  relStart := 0#32
  lfoPhase := 0#32
  cutoffEff := 0x469C4000#32
  b0 := 0#32
  b1 := 0#32
  b2 := 0#32
  a1 := 0#32
  a2 := 0#32
  x1 := 0#32
  x2 := 0#32
  y1 := 0#32
  y2 := 0#32

/-- The state right after reset, with the parameters `p` (R194, R195). What the environment holds is empty
(DESIGN CHOICE, assumption log 25). -/
def State.resetOf (p : Params) : State where
  params := p
  cfg := { prepared := false, fs := 0#32, maxBlock := 0 }
  shadow := Bank.reset p
  active := Bank.reset p
  voices := List.replicate p.poolSize Voice.reset
  framesLeft := 0
  silentLeft := 0
  cPos := 0
  pPos := 0
  cPort := []
  hostScript := []
  controlScript := []
  turns := []
  output := []
  answers := []

/-- The state right after reset, with the default parameters of R9. -/
def State.reset : State := State.resetOf Params.default

end Sys2Proof.Machine
end

