-- ==== Sys2Proof/Machine/Float.lean ====
section
/-! DEFINITION. IEEE 754 binary32 arithmetic on bit patterns (`00_scope.md` R12 to R15). Every finite value is an integer
number of units of 2^-149, so each operation computes exactly on integers and rounds once at the end, to nearest, ties to
even. An infinity is read as plus or minus 2^128, one unit in the last place above the largest finite value, which is right
for comparisons. -/

namespace Sys2Proof.Machine

/-- How many units of 2^-149 make `1.0`. -/
def fUnit : Nat := 2 ^ 149

/-- The sign, bit 31 (R12). -/
def fSign (x : F32) : Bool := decide (2 ^ 31 ≤ x.toNat)

/-- The magnitude bits 30..0: the exponent and the fraction read as one number, which grows with the magnitude. -/
def fBits (x : F32) : Nat := x.toNat % 2 ^ 31

/-- The magnitude bits of an infinity: exponent all ones, fraction 0. -/
def infBits : Nat := 0x7F800000

/-- `isNaN` (R13): exponent all ones, fraction not 0. -/
def isNaN (x : F32) : Bool := decide (infBits < fBits x)

/-- Plus or minus infinity. -/
def isInf (x : F32) : Bool := decide (fBits x = infBits)

/-- `isFinite` (R13): neither an infinity nor a NaN. -/
def isFinite (x : F32) : Bool := decide (fBits x < infBits)

/-- The magnitude, in units of 2^-149, of magnitude bits with exponent field `e` and fraction `f`: `f` for a subnormal
(`e = 0`), else `(2^23 + f) * 2^(e-1)`. -/
def magOf (b : Nat) : Nat := if b < 2 ^ 23 then b else (2 ^ 23 + b % 2 ^ 23) * 2 ^ (b / 2 ^ 23 - 1)

/-- The magnitude in units of 2^-149. -/
def fMag (x : F32) : Nat := magOf (fBits x)

/-- The value in units of 2^-149. -/
def fVal (x : F32) : Int := if fSign x then -(fMag x : Int) else (fMag x : Int)

/-- The 31 magnitude bits of `num/den` units of 2^-149, rounded to nearest, ties to even, with an unbounded exponent: the
significand is the quotient by the unit in the last place, and a carry out of it moves into the exponent. -/
def roundMag (num den : Nat) : Nat :=
  let e := Nat.log2 (num / den) - 23
  let ulp := den * 2 ^ e
  let m := num / ulp
  let r := num % ulp
  e * 2 ^ 23 + (if ulp < 2 * r ∨ (2 * r = ulp ∧ m % 2 = 1) then m + 1 else m)

/-- The binary32 pattern with the given sign whose magnitude is `num/den` units of 2^-149, rounded; past the largest finite
value it is an infinity. -/
def roundF (neg : Bool) (num den : Nat) : F32 :=
  BitVec.ofNat 32 ((if neg then 2 ^ 31 else 0) + min (roundMag num den) infBits)

/-- `CR(r)` of the rational `r = num/den`, negated where `neg` (R15). -/
def crRat (neg : Bool) (num den : Nat) : F32 := roundF neg (num * fUnit) den

/-- `f32(k)` (R13): the conversion of an integer, exact for every `|k| ≤ 2^24`. -/
def fOfInt (k : Int) : F32 := crRat (decide (k < 0)) k.natAbs 1

/-- Plus or minus zero. -/
def fZero (neg : Bool) : F32 := if neg then 0x80000000#32 else 0#32

/-- Plus or minus infinity. -/
def fInf (neg : Bool) : F32 := if neg then 0xFF800000#32 else 0x7F800000#32

/-- The NaN an operation answers. Its pattern is a free value (assumption log 8): any NaN pattern, and nothing else is known
of it. -/
def fNaN (src : NaNSource) (a b : F32) : F32 :=
  if isNaN (Config.nanPattern src a b) then Config.nanPattern src a b else 0x7FC00000#32

/-- The sum of two values that are neither NaN, with one rounding; `src` only labels a NaN result. An exact zero is `+0.0`
unless both operands are negative. -/
def fSum (src : NaNSource) (a b : F32) : F32 :=
  if isInf a then (if isInf b && fSign a != fSign b then fNaN src a b else a)
  else if isInf b then b
  else if fVal a + fVal b = 0 then fZero (fSign a && fSign b)
  else roundF (decide (fVal a + fVal b < 0)) (fVal a + fVal b).natAbs 1

/-- The sign bit flipped: 2^31 added modulo 2^32. -/
def fNeg (x : F32) : F32 := x + 0x80000000#32

/-- `a + b` (R13). -/
def fAdd (a b : F32) : F32 := if isNaN a || isNaN b then fNaN .add a b else fSum .add a b

/-- `a - b` (R13): the sum with the sign of `b` flipped. -/
def fSub (a b : F32) : F32 := if isNaN a || isNaN b then fNaN .sub a b else fSum .sub a (fNeg b)

/-- `a * b` (R13). -/
def fMul (a b : F32) : F32 :=
  if isNaN a || isNaN b then fNaN .mul a b
  else if isInf a || isInf b then
    if fMag a = 0 ∨ fMag b = 0 then fNaN .mul a b else fInf (fSign a != fSign b)
  else roundF (fSign a != fSign b) (fMag a * fMag b) fUnit

/-- `a / b` (R13). -/
def fDiv (a b : F32) : F32 :=
  if isNaN a || isNaN b then fNaN .div a b
  else if isInf a then (if isInf b then fNaN .div a b else fInf (fSign a != fSign b))
  else if isInf b then fZero (fSign a != fSign b)
  else if fMag b = 0 then (if fMag a = 0 then fNaN .div a b else fInf (fSign a != fSign b))
  else roundF (fSign a != fSign b) (fMag a * fUnit) (fMag b)

/-- `a ≤ b` (R13): false with a NaN; the two zeros are equal. -/
def fLe (a b : F32) : Bool := !isNaN a && !isNaN b && decide (fVal a ≤ fVal b)

/-- `a < b` (R13). -/
def fLt (a b : F32) : Bool := !isNaN a && !isNaN b && decide (fVal a < fVal b)

/-- `a = b` (R13), the comparison, not equality of patterns. -/
def fEq (a b : F32) : Bool := !isNaN a && !isNaN b && decide (fVal a = fVal b)

/-- `clamp(x, lo, hi)` (R14). -/
def fClamp (x lo hi : F32) : F32 := if fLe x lo then lo else if fLe hi x then hi else x

/-- `min(a, b)` (R14). -/
def fMin (a b : F32) : F32 := if fLe a b then a else b

/-- `fmod(x, m)` (R14): the exact remainder for finite `x ≥ 0` and finite `m > 0`; outside that domain a free value
(assumption log 9). A zero remainder is `+0.0`, also of `-0.0`, whose remainder R14 gives no sign (DESIGN CHOICE, assumption
log 29). -/
def fMod (x m : F32) : F32 :=
  if isFinite x && isFinite m && fLe 0#32 x && fLt 0#32 m then roundF false (fMag x % fMag m) 1
  else Config.fmodOutside x m

/-- `roundHalfUp(x) = floor(x + 1/2)` on the exact value (R14); of an infinity or a NaN a free value (assumption log 9). -/
def roundHalfUp (x : F32) : Int :=
  if isFinite x then (2 * fVal x + (fUnit : Int)) / ((2 * fUnit : Nat) : Int) else Config.roundOutside x

/-- `2^q` as an f32. -/
def fPow2 (q : Int) : F32 :=
  match q with
  | .ofNat n => crRat false (2 ^ n) 1
  | .negSucc n => crRat false 1 (2 ^ (n + 1))

/-- `0.5`. -/
def fHalf : F32 := 0x3F000000#32

/-- `1.0`. -/
def fOne : F32 := 0x3F800000#32

/-- `2.0`. -/
def fTwo : F32 := 0x40000000#32

/-- `TWO_PI = CR(2π)` (R15). -/
def twoPi : F32 := 0x40C90FDB#32

end Sys2Proof.Machine
end

