-- ==== Sys2Proof/Machine/Transcendental.lean ====
section
/-! DEFINITION. `fsin`, `fcos`, `fexp2` (`00_scope.md` R18, R19) and the correctly rounded sine of a rational part of a turn
that `40_wavetable.md` R77 needs. The exact real value is approximated in fixed point with 512 fraction bits and then rounded
once to f32 (assumption log 11). -/

namespace Sys2Proof.Machine

/-- `1` in the fixed-point format: 512 fraction bits. -/
def fixOne : Nat := 2 ^ 512

/-- `π` in fixed point, rounded down (assumption log 12). -/
def fixPi : Nat :=
  0x3243F6A8885A308D313198A2E03707344A4093822299F31D0082EFA98EC4E6C89452821E638D01377BE5466CF34E90C6CC0AC29B7C97C50DD3F84D5B5B5470917

/-- `ln 2` in fixed point, rounded down (assumption log 12). -/
def fixLn2 : Nat :=
  0xB17217F7D1CF79ABC9E3B39803F2F6AF40F343267298B62D8A0D175B8BAAFA2BE7B876206DEBAC98559552FB4AFA1B10ED2EAE35C138214427573B291169B825

/-- `CR` of a fixed-point value (R15); an exact 0 gives `+0.0` (assumption log 13). -/
def crFix (v : Int) : F32 := roundF (decide (v < 0)) (v.natAbs * fUnit) fixOne

/-- A fixed-point value limited to `[-1, 1]`. -/
def fixUnit (v : Int) : Int := max (-(fixOne : Int)) (min v (fixOne : Int))

/-- The Taylor sum `t + i·t·y/(n+1) + …` of `fuel` terms, where `t = y^n/n!`: from `n = 0`, `t = 1` it is `e^(iy)` as the
pair (cos, sin). -/
def expISum : Nat → Nat → Nat → Nat → Int × Int
  | 0, _, _, _ => (0, 0)
  | fuel + 1, n, t, y =>
    let r := expISum fuel (n + 1) (t * y / (fixOne * (n + 1))) y
    ((t : Int) - r.2, r.1)

/-- The square of `cos + i·sin`, `k` times: the angle doubled `k` times. -/
def doubleAngle : Nat → Int × Int → Int × Int
  | 0, z => z
  | k + 1, z => doubleAngle k ((z.1 * z.1 - z.2 * z.2) / fixOne, (2 * z.1 * z.2) / fixOne)

/-- (cos, sin) of the fixed-point angle `a`, given a `k` with `a/2^k` at most `2^-8` or so: the Taylor sum at `a/2^k`, then `k`
doublings. -/
def cosSin (a k : Nat) : Int × Int := doubleAngle k (expISum 48 0 fixOne (a / 2 ^ k))

/-- How often to halve the angle of `mag` units of 2^-149 to come below `2^-8`. -/
def halvings (mag : Nat) : Nat := Nat.log2 mag + 9 - 149

/-- (cos, sin) of the angle of `mag` units of 2^-149. -/
def cosSinOf (mag : Nat) : Int × Int := cosSin (mag * 2 ^ 363) (halvings mag)

/-- `CR(sin(x))` for a finite `x`. -/
def sinCR (x : F32) : F32 :=
  let s := fixUnit (cosSinOf (fMag x)).2
  crFix (if fSign x then -s else s)

/-- `CR(cos(x))` for a finite `x`. -/
def cosCR (x : F32) : F32 := crFix (fixUnit (cosSinOf (fMag x)).1)

/-- The Taylor sum `t + t·y/(n+1) + …` of `fuel` terms, where `t = y^n/n!`: from `n = 0`, `t = 1` it is `e^y`. -/
def expSum : Nat → Nat → Nat → Nat → Nat
  | 0, _, _, _ => 0
  | fuel + 1, n, t, y => t + expSum fuel (n + 1) (t * y / (fixOne * (n + 1))) y

/-- The square of a fixed-point number, `k` times. -/
def squareFix : Nat → Nat → Nat
  | 0, v => v
  | k + 1, v => squareFix k (v * v / fixOne)

/-- `2^f` in fixed point for `f` units of 2^-149, `f < 2^149`: `e^(f·ln 2 / 2^8)` squared eight times. -/
def exp2Frac (f : Nat) : Nat := squareFix 8 (expSum 48 0 fixOne (f * fixLn2 / 2 ^ 157))

/-- `CR(2^x)` for a finite `x`: the integer part of `x` scales, the fractional part goes through `exp2Frac`. From `2^128` on it
is `+inf`, below `2^-151` it is `+0.0` (assumption log 14). -/
def exp2CR (x : F32) : F32 :=
  let n := fVal x / (fUnit : Int)
  let f := (fVal x % (fUnit : Int)).toNat
  if 128 ≤ n then fInf false
  else if n < -151 then 0#32
  else
    match n with
    | .ofNat k => roundF false (exp2Frac f * fUnit * 2 ^ k) fixOne
    | .negSucc k => roundF false (exp2Frac f * fUnit) (fixOne * 2 ^ (k + 1))

/-- An opaque sine or cosine limited to what R19 says of it at a finite argument: finite and in `[-1, 1]`. -/
def limitUnit (y : F32) : F32 :=
  if isFinite y && fLe 0xBF800000#32 y && fLe y fOne then y else 0#32

/-- An opaque `2^x` limited to what R19 says of it at a finite argument: positive and not NaN. -/
def limitPositive (y : F32) : F32 := if fLt 0#32 y then y else fOne

/-- `fsin` (R18, R19). Under the opaque choice it is any function with the properties of R19 (assumption log 15); at a NaN
or an infinity, of which no rule gives the sine, it is a free value under either choice (assumption log 10). -/
def fsin (p : Params) (x : F32) : F32 :=
  if isFinite x then
    match p.transcendental with
    | .cr => sinCR x
    | .anyAllowed => if x = 0#32 then 0#32 else limitUnit (Config.freeSin x)
  else Config.freeSin x

/-- `fcos` (R18, R19), as `fsin`. -/
def fcos (p : Params) (x : F32) : F32 :=
  if isFinite x then
    match p.transcendental with
    | .cr => cosCR x
    | .anyAllowed => limitUnit (Config.freeCos x)
  else Config.freeCos x

/-- The integer `k` an f32 holds, where it is one with `|k| ≤ 126`: the arguments at which R19 fixes `fexp2`. -/
def smallInt (x : F32) : Option Int :=
  if fVal x % (fUnit : Int) = 0 ∧ (fVal x / (fUnit : Int)).natAbs ≤ 126 then some (fVal x / (fUnit : Int)) else none

/-- `fexp2` (R18, R19), as `fsin`. -/
def fexp2 (p : Params) (x : F32) : F32 :=
  if isFinite x then
    match p.transcendental with
    | .cr => exp2CR x
    | .anyAllowed =>
      match smallInt x with
      | some k => fPow2 k
      | none => limitPositive (Config.freeExp2 x)
  else Config.freeExp2 x

/-- `CR(sin(2π·i/L))` of the exact real value (`40_wavetable.md` R77): the quarter turn is split off exactly, and the rest,
`π·r/(2L)`, goes through `cosSin`. -/
def sineEntry (L i : Nat) : F32 :=
  let z := cosSin (fixPi * (4 * i % L) / (2 * L)) 9
  match 4 * i / L % 4 with
  | 0 => crFix (fixUnit z.2)
  | 1 => crFix (fixUnit z.1)
  | 2 => crFix (fixUnit (-z.2))
  | _ => crFix (fixUnit (-z.1))

end Sys2Proof.Machine
end

