-- ==== Sys2Proof/Machine/Wavetable.lean ====
section
/-! DEFINITION. The wavetable ROM (`40_wavetable.md`): each entry as a function of the table length. The ROM has no writer
(`10_state.md` R35), so State stores none of it (assumption log 16). -/

namespace Sys2Proof.Machine

/-- The selector number of a waveform (R75). -/
def waveformCode : Waveform → Nat
  | .sine => 0
  | .square => 1
  | .triangle => 2
  | .sawtooth => 3

/-- The waveform a selector names; none above 3 (R75, R81). -/
def waveformOf : Nat → Option Waveform
  | 0 => some .sine
  | 1 => some .square
  | 2 => some .triangle
  | 3 => some .sawtooth
  | _ => none

/-- `CR` of the rational `num/den`; an exact zero is `+0.0`. -/
def crQuot (num : Int) (den : Nat) : F32 := crRat (decide (num < 0)) num.natAbs den

/-- The square table (R78). -/
def squareEntry (L i : Nat) : F32 := if i < L / 2 then fOne else 0xBF800000#32

/-- The triangle table (R79), with `t = i/L`: `4t`, then `2 - 4t`, then `4t - 4`. -/
def triangleEntry (L i : Nat) : F32 :=
  if i < L / 4 then crQuot (4 * (i : Int)) L
  else if i < 3 * L / 4 then crQuot (2 * (L : Int) - 4 * (i : Int)) L
  else crQuot (4 * (i : Int) - 4 * (L : Int)) L

/-- The sawtooth table (R80): `2i/L - 1`. -/
def sawtoothEntry (L i : Nat) : F32 := crQuot (2 * (i : Int) - (L : Int)) L

/-- `Table(w, i)` for table length `L` (R77 to R80). -/
def tableEntry (L : Nat) (w : Waveform) (i : Nat) : F32 :=
  match w with
  | .sine => sineEntry L i
  | .square => squareEntry L i
  | .triangle => triangleEntry L i
  | .sawtooth => sawtoothEntry L i

end Sys2Proof.Machine
end

