-- ==== Sys2Proof/Machine/Flags.lean ====
section
/-! DEFINITION. The status words. The WOB has no condition codes and no arithmetic flags (`10_state.md` R24); its only status
bits are `CFG.PREPARED`, `V[k].ACTIVE` and `V[k].STAGE`, which the R-port packs into the words below (`20_memory.md` R49,
R50). -/

namespace Sys2Proof.Machine

/-- A bit as a number (R12). -/
def bitNat (b : Bool) : Nat := if b then 1 else 0

/-- The 3-bit code of a stage (R32). -/
def stageCode : Stage → Nat
  | .idle => 0
  | .attack => 1
  | .decay => 2
  | .sustain => 3
  | .release => 4

/-- `ACTIVE_COUNT`: the number of active voices (R49). -/
def activeCount (vs : List Voice) : Nat := vs.countP fun v => v.active

/-- `BLOCK_STATUS()` (R49): bit 0 `CFG.PREPARED`, bits 15..8 `ACTIVE_COUNT`. -/
def blockStatus (s : State) : Word32 :=
  BitVec.ofNat 32 (bitNat s.cfg.prepared + activeCount s.voices % 256 * 2 ^ 8)

/-- `CONFIG_ID()` (R49): `POOL_SIZE`, `UNISON_MAX`, `NUM_CHANNELS`, `log2(TABLE_LEN)`, a byte each, lowest first. -/
def configId (p : Params) : Word32 :=
  BitVec.ofNat 32
    (p.poolSize % 256 + p.unisonMax % 256 * 2 ^ 8 + p.numChannels % 256 * 2 ^ 16 + Nat.log2 p.tableLen % 256 * 2 ^ 24)

/-- The voice word `STATUS` (R50): bit 0 `ACTIVE`, bits 3..1 `STAGE`, bits 15..8 `NOTE`. -/
def voiceStatus (v : Voice) : Word32 :=
  BitVec.ofNat 32 (bitNat v.active + stageCode v.stage * 2 + v.note % 256 * 2 ^ 8)

end Sys2Proof.Machine
end

