-- ==== Sys2Proof/Machine/Operands.lean ====
section
/-! DEFINITION. The operand checks of each command and the values its operands become (`60_exceptions.md` R183, R184). The
fields themselves are read whole by the decoder (`30_encoding.md` R62). -/

namespace Sys2Proof.Machine

/-- The checks of PREPARE, in the order of R145. -/
def prepareCheck (p : Params) (fs : F32) (maxBlock : Nat) : Option Rejection :=
  if isFinite fs = false ∨ fLe fs 0#32 then some .rateNotPositive
  else if fLt fs p.fsMin ∨ fLt p.fsMax fs then some .rateOutOfRange
  else if maxBlock = 0 then some .blockNotPositive
  else none

/-- The checks of NOTE_ON, in the order of R148. -/
def noteOnCheck (note : Nat) (vel : F32) : Option Rejection :=
  if 127 < note then some .noteOutOfRange else if isNaN vel then some .velocityNaN else none

/-- The check of NOTE_OFF (R151); every velocity pattern is accepted. -/
def noteOffCheck (note : Nat) : Option Rejection := if 127 < note then some .noteOutOfRange else none

/-- The check of the ten f32 setters (R164, R175). -/
def payloadCheck (x : F32) : Option Rejection := if isFinite x then none else some .nonFinitePayload

/-- The check of SET_WAVEFORM (R176). -/
def selectorCheck (sel : Nat) : Option Rejection := if 3 < sel then some .selectorOutOfRange else none

/-- The velocity NOTE_ON stores (R148). -/
def clampVelocity (vel : F32) : F32 := fClamp vel 0#32 fOne

/-- `hi = +inf` of a setter without an upper bound (R164). -/
def noUpperBound : F32 := 0x7F800000#32

/-- The value an f32 setter stores (R164). -/
def clampPayload (lo hi x : F32) : F32 := fClamp x lo hi

/-- `CR(0.1)`, the lowest resonance (R171). -/
def fTenth : F32 := 0x3DCCCCCD#32

/-- `10.0`, the highest resonance (R171). -/
def fTen : F32 := 0x41200000#32

/-- The unison size SET_UNISON stores (R174): `min(max(n, 1), UNISON_MAX)`. -/
def clampUnison (p : Params) (n : Nat) : Nat := min (max n 1) p.unisonMax

/-- The operand check of each command, after decoding (R68, R183). -/
def operandCheck (p : Params) : Instr → Option Rejection
  | .nop => none
  | .prepare fs maxBlock => prepareCheck p fs maxBlock
  | .noteOn note vel => noteOnCheck note vel
  | .noteOff note _ => noteOffCheck note
  | .render _ => none
  | .setAttack x => payloadCheck x
  | .setDecay x => payloadCheck x
  | .setSustain x => payloadCheck x
  | .setRelease x => payloadCheck x
  | .setCutoff x => payloadCheck x
  | .setResonance x => payloadCheck x
  | .setLfoRate x => payloadCheck x
  | .setLfoDepth x => payloadCheck x
  | .setUnison _ => none
  | .setDetune x => payloadCheck x
  | .setWaveform sel => selectorCheck sel
  | .setVolume x => payloadCheck x

/-- The verdict on a word written to a port (R68, R185): the first check that fails, decoding before operands; none where the
command is accepted. -/
def verdict (p : Params) (port : Port) (w : Word64) : Option Rejection :=
  match decode port w with
  | .error r => some r
  | .ok i => operandCheck p i

end Sys2Proof.Machine
end

