-- ==== Sys2Proof/Machine/Oscillator.lean ====
section
/-! DEFINITION. Phase increment, unison layout and oscillator readout (`41_oscillator.md`). -/

namespace Sys2Proof.Machine

/-- `SEMI[r] = CR(2^(r/12))`, the bits of R86. -/
def semiTable : List F32 :=
  [0x3F800000#32, 0x3F879C7D#32, 0x3F8FACD6#32, 0x3F9837F0#32, 0x3FA14518#32, 0x3FAADC08#32,
   0x3FB504F3#32, 0x3FBFC887#32, 0x3FCB2FF5#32, 0x3FD744FD#32, 0x3FE411F0#32, 0x3FF1A1BF#32]

/-- `SEMI[r]` for `r` in 0..11. -/
def semi (r : Nat) : F32 := semiTable.getD r fOne

/-- `440.0`. -/
def f440 : F32 := 0x43DC0000#32

/-- `12.0`. -/
def f12 : F32 := 0x41400000#32

/-- `PhaseInc(n)` (R85): the octave `q = floor((n - 69)/12)` scales exactly, the semitone `r` comes from `SEMI`. -/
def phaseInc (L : Nat) (fs : F32) (n : Nat) : F32 :=
  fMul (fMul (fDiv (fMul (fOfInt L) f440) fs) (semi (((n : Int) - 69) % 12).toNat)) (fPow2 (((n : Int) - 69) / 12))

/-- The phase after one frame (R90): the rounded sum, reduced exactly. -/
def nextPhase (L : Nat) (fs : F32) (n : Nat) (phase : F32) : F32 :=
  fMod (fAdd phase (phaseInc L fs n)) (fOfInt L)

/-- Entry `i` of `Layout(N, D)` (R94, R95): the offset is `i - floor(N/2)`. -/
def layoutEntry (p : Params) (N : Nat) (D : F32) (i : Nat) : F32 :=
  if i < N then fexp2 p (fDiv (fMul (fOfInt ((i : Int) - ((N / 2 : Nat) : Int))) D) f12) else 0#32

/-- `Layout(N, D)` (R95). -/
def layout (p : Params) (N : Nat) (D : F32) : List F32 := (List.range p.unisonMax).map (layoutEntry p N D)

/-- `TableIndex(phase, ratio)` (R98). -/
def tableIndex (L : Nat) (phase ratio : F32) : Nat :=
  (roundHalfUp (fMod (fMul phase ratio) (fOfInt L)) % (L : Int)).toNat

/-- `RATIO[i]` of a bank. -/
def bankRatio (b : Bank) (i : Nat) : F32 := b.ratio.getD i 0#32

/-- `UnisonReadout` at a phase (R99): the sum in increasing `i` from `+0.0`, divided by `N`. -/
def unisonReadout (p : Params) (b : Bank) (phase : F32) : F32 :=
  fDiv ((List.range b.unison).foldl
    (fun s i => fAdd s (tableEntry p.tableLen b.waveform (tableIndex p.tableLen phase (bankRatio b i)))) 0#32)
    (fOfInt b.unison)

/-- `AdvancePhase` (R90). -/
def advancePhase (p : Params) (fs : F32) (v : Voice) : Voice :=
  { v with phase := nextPhase p.tableLen fs v.note v.phase }

end Sys2Proof.Machine
end

