-- ==== Sys2Proof/Machine/RPort.lean ====
section
/-! DEFINITION. The R-port: a read-only map of 2^32 word addresses (`20_memory.md` R47 to R52). -/

namespace Sys2Proof.Machine

/-- `ParamWord(bank, p)` for `p` in 0..11 (R51). -/
def paramWord (b : Bank) (i : Nat) : Word32 :=
  match i with
  | 0 => b.attack
  | 1 => b.decay
  | 2 => b.sustain
  | 3 => b.release
  | 4 => b.cutoff
  | 5 => b.resonance
  | 6 => b.lfoRate
  | 7 => b.lfoDepth
  | 8 => BitVec.ofNat 32 b.unison
  | 9 => b.detune
  | 10 => BitVec.ofNat 32 (waveformCode b.waveform)
  | 11 => b.volume
  | _ => 0#32

/-- Field `f` of `VoiceWord(k, f)` (R50). -/
def voiceWord (v : Voice) (f : Nat) : Word32 :=
  match f with
  | 0 => voiceStatus v
  | 1 => v.velocity
  | 2 => v.phase
  | 3 => v.level
  | 4 => v.relStart
  | 5 => v.lfoPhase
  | 6 => v.cutoffEff
  | 7 => v.b0
  | 8 => v.b1
  | 9 => v.b2
  | 10 => v.a1
  | 11 => v.a2
  | 12 => v.x1
  | 13 => v.x2
  | 14 => v.y1
  | 15 => v.y2
  | _ => 0#32

/-- `V[k]`; a slot past the pool reads as a reset voice, which no rule reads. -/
def voiceAt (s : State) (k : Nat) : Voice := s.voices.getD k Voice.reset

/-- The waveform whose table holds word `o` of the ROM window; the window has four. -/
def romWaveform (n : Nat) : Waveform := (waveformOf n).getD .sine

/-- `MemRead(addr, 4)` (R48), in its order; an address the map does not name reads 0 (R47). -/
def memReadNat (s : State) (addr : Nat) : Word32 :=
  if addr = 0 then blockStatus s
  else if addr = 1 then s.cfg.fs
  else if addr = 2 then BitVec.ofNat 32 s.cfg.maxBlock
  else if addr = 3 then configId s.params
  else if 0x0100 ≤ addr ∧ addr < 0x010C then paramWord s.active (addr - 0x0100)
  else if 0x0180 ≤ addr ∧ addr < 0x0180 + s.params.unisonMax then bankRatio s.active (addr - 0x0180)
  else if 0x0200 ≤ addr ∧ addr < 0x020C then paramWord s.shadow (addr - 0x0200)
  else if 0x0280 ≤ addr ∧ addr < 0x0280 + s.params.unisonMax then bankRatio s.shadow (addr - 0x0280)
  else if 0x1000 ≤ addr ∧ addr < 0x1000 + 16 * s.params.poolSize then
    voiceWord (voiceAt s ((addr - 0x1000) / 16)) ((addr - 0x1000) % 16)
  else if 0x10000 ≤ addr ∧ addr < 0x10000 + 4 * s.params.tableLen then
    tableEntry s.params.tableLen (romWaveform ((addr - 0x10000) / s.params.tableLen))
      ((addr - 0x10000) % s.params.tableLen)
  else 0#32

/-- `MemRead` at a 32-bit word address. -/
def memRead (s : State) (addr : Word32) : Word32 := memReadNat s addr.toNat

end Sys2Proof.Machine
end

