-- ==== Sys2Proof/Machine/Envelope.lean ====
section
/-! DEFINITION. The ADSR envelope generator (`42_envelope.md`). -/

namespace Sys2Proof.Machine

/-- The Attack arm (R106). -/
def attackStep (b : Bank) (fs : F32) (v : Voice) : Voice :=
  if fEq b.attack 0#32 then { v with level := fOne, stage := .decay }
  else
    let l := fAdd v.level (fDiv fOne (fMul b.attack fs))
    if fLe fOne l then { v with level := fOne, stage := .decay } else { v with level := l }

/-- The Decay arm (R107). -/
def decayStep (b : Bank) (fs : F32) (v : Voice) : Voice :=
  if fEq b.decay 0#32 then { v with level := b.sustain, stage := .sustain }
  else
    let l := fSub v.level (fDiv (fSub fOne b.sustain) (fMul b.decay fs))
    if fLe l b.sustain then { v with level := b.sustain, stage := .sustain } else { v with level := l }

/-- The Release arm (R109). -/
def releaseStep (b : Bank) (fs : F32) (v : Voice) : Voice :=
  if fEq b.release 0#32 then { v with level := 0#32, stage := .idle }
  else
    let l := fSub v.level (fDiv v.relStart (fMul b.release fs))
    if fLe l 0#32 then { v with level := 0#32, stage := .idle } else { v with level := l }

/-- `EnvAdvance` (R105): one arm per stage; R108 is the Sustain arm, R110 the Idle arm. -/
def envAdvance (b : Bank) (fs : F32) (v : Voice) : Voice :=
  match v.stage with
  | .attack => attackStep b fs v
  | .decay => decayStep b fs v
  | .sustain => { v with level := b.sustain }
  | .release => releaseStep b fs v
  | .idle => { v with level := 0#32 }

/-- The freeing test of render step (g) (R112). -/
def envDone (p : Params) (v : Voice) : Bool :=
  match v.stage with
  | .idle => true
  | .release => fLt v.level p.envEpsilon
  | .attack => false
  | .decay => false
  | .sustain => false

end Sys2Proof.Machine
end

