-- ==== Sys2Proof/Machine/Filter.lean ====
section
/-! DEFINITION. The LFO and the biquad low-pass filter (`43_filter.md`). -/

namespace Sys2Proof.Machine

/-- `20.0`, the lowest cutoff. -/
def f20 : F32 := 0x41A00000#32

/-- `20000.0`, the highest cutoff. -/
def f20000 : F32 := 0x469C4000#32

/-- `LfoAdvance` (R117). -/
def lfoAdvance (b : Bank) (fs : F32) (v : Voice) : Voice :=
  let ph := fAdd v.lfoPhase (fDiv b.lfoRate fs)
  { v with lfoPhase := if fLe twoPi ph then fMod ph twoPi else ph }

/-- `CutoffEff` (R121). -/
def cutoffStep (p : Params) (b : Bank) (v : Voice) : Voice :=
  { v with cutoffEff := fClamp (fAdd b.cutoff (fMul (fsin p v.lfoPhase) b.lfoDepth)) f20 f20000 }

/-- The design angle `w0` (R123): radians per sample at the design frequency `min(CUTOFF_EFF, NYQ_GUARD * FS)`. -/
def designAngle (p : Params) (fs : F32) (cutoffEff : F32) : F32 :=
  fDiv (fMul twoPi (fMin cutoffEff (fMul p.nyqGuard fs))) fs

/-- `Coeffs` (R123). -/
def coeffStep (p : Params) (b : Bank) (fs : F32) (v : Voice) : Voice :=
  let w0 := designAngle p fs v.cutoffEff
  let sn := fsin p w0
  let cs := fcos p w0
  let alpha := fDiv sn (fMul fTwo b.resonance)
  let a0 := fAdd fOne alpha
  let t := fSub fOne cs
  let b0 := fDiv (fMul t fHalf) a0
  { v with
    b0 := b0
    b1 := fDiv t a0
    b2 := b0
    a1 := fDiv (fMul 0xC0000000#32 cs) a0
    a2 := fDiv (fSub fOne alpha) a0 }

/-- Render step (a): LFO, cutoff, coefficients, in that order (`44_voice.md` R137). -/
def filterUpdate (p : Params) (b : Bank) (fs : F32) (v : Voice) : Voice :=
  coeffStep p b fs (cutoffStep p b (lfoAdvance b fs v))

/-- The filter sum of R126 before the guard, one rounding per operator, left to right. -/
def filterSum (v : Voice) (x : F32) : F32 :=
  fSub (fSub (fAdd (fAdd (fMul v.b0 x) (fMul v.b1 v.x1)) (fMul v.b2 v.x2)) (fMul v.a1 v.y1)) (fMul v.a2 v.y2)

/-- The history cleared to `+0.0`. -/
def clearHistory (v : Voice) : Voice := { v with x1 := 0#32, x2 := 0#32, y1 := 0#32, y2 := 0#32 }

/-- The filter's output (R126, R127): the sum, or `+0.0` where the sum is not finite. -/
def filterOut (v : Voice) (x : F32) : F32 := if isFinite (filterSum v x) then filterSum v x else 0#32

/-- The voice after `Filter` (R126, R127): the history shifted, or cleared where the sum is not finite. -/
def filterStep (v : Voice) (x : F32) : Voice :=
  if isFinite (filterSum v x) then { v with x1 := x, x2 := v.x1, y1 := filterSum v x, y2 := v.y1 } else clearHistory v

end Sys2Proof.Machine
end

