-- ==== Sys2Proof/Machine/Voice.lean ====
section
/-! DEFINITION. The voice unit operations (`44_voice.md`): start, stop, deactivate, and one frame of rendering. -/

namespace Sys2Proof.Machine

/-- `Start` (R132): a hard retrigger of the envelope; the filter history is cleared only where the voice was inactive (R133);
phases, coefficients and `CUTOFF_EFF` are kept. -/
def startVoice (note : Nat) (vel : F32) (v : Voice) : Voice :=
  let w := if v.active then v else clearHistory v
  { w with note := note, velocity := vel, active := true, stage := .attack, level := 0#32, relStart := 0#32 }

/-- `Deactivate` (R135). -/
def deactivate (v : Voice) : Voice := { v with active := false, stage := .idle, level := 0#32, relStart := 0#32 }

/-- `Stop` (R134): nothing on an inactive voice (R136). -/
def stopVoice (tailOff : Bool) (v : Voice) : Voice :=
  if v.active then (if tailOff then { v with stage := .release, relStart := v.level } else deactivate v) else v

/-- The voice after steps (a) to (f) of R137, given that it is active. -/
def renderActive (p : Params) (b : Bank) (fs : F32) (v : Voice) : Voice :=
  let va := filterUpdate p b fs v
  let vd := filterStep va (unisonReadout p b v.phase)
  envAdvance b fs (advancePhase p fs vd)

/-- The filter output `y` of a frame of an active voice (R137, step (d)). -/
def renderFilterOut (p : Params) (b : Bank) (fs : F32) (v : Voice) : F32 :=
  filterOut (filterUpdate p b fs v) (unisonReadout p b v.phase)

/-- `RenderSample` (R137): the voice after its frame and its sample. An inactive voice gives `+0.0` and changes nothing
(R138). -/
def renderSample (p : Params) (b : Bank) (fs : F32) (v : Voice) : Voice × F32 :=
  if v.active then
    let w := renderActive p b fs v
    (if envDone p w then deactivate w else w, fMul (renderFilterOut p b fs v) w.level)
  else (v, 0#32)

end Sys2Proof.Machine
end

