-- ==== Sys2Proof/Machine/Ops.lean ====
section
/-! DEFINITION. The operations over the state that the commands and the frame step share: rejection, writing the shadow bank,
the latch, note dispatch, emission, and one frame. The WOB takes no exception (`60_exceptions.md` R181, R187), so there is no
exception entry and no return from one; a rejection (R182) is its only answer to an error. -/

namespace Sys2Proof.Machine

/-- `reject(reason)` (R182): the command ends with no state change. The reason is a label and is not kept. -/
def reject (_ : Rejection) (s : State) : Host.Outcome State Fault Refusal := .next s

/-- A command with an operand check: rejected where the check fails, else the state it leaves. -/
def guarded (check : Option Rejection) (s s' : State) : Host.Outcome State Fault Refusal :=
  match check with
  | some r => reject r s
  | none => .next s'

/-- `SHADOW <- b`. -/
def setShadow (s : State) (b : Bank) : State := { s with shadow := b }

/-- `Latch()` (R154): all of `SHADOW` into `ACTIVE`. -/
def latch (s : State) : State := { s with active := s.shadow }

/-- One frame of the same sample on every channel (R42). -/
def monoFrame (s : State) (x : F32) : Frame := List.replicate s.params.numChannels x

/-- `Emit` (R16, R42): the frame is appended to the output stream. -/
def emit (s : State) (f : Frame) : State := { s with output := s.output ++ [f] }

/-- The start of a silent block (R158): the renderer owes `n` frames of `+0.0`, and nothing else changes (assumption log 6). -/
def oweSilence (s : State) (n : Nat) : State := { s with silentLeft := n }

/-- One atomic frame step of a silent block (R158, R204): a frame of `+0.0`, and nothing else. -/
def silentStep (s : State) : State := { emit s (monoFrame s 0#32) with silentLeft := s.silentLeft - 1 }

/-- Starts the first inactive voice (R148); a full pool is unchanged (R149). -/
def startFirstIdle (note : Nat) (vel : F32) : List Voice → List Voice
  | [] => []
  | v :: vs => if v.active then v :: startFirstIdle note vel vs else startVoice note vel v :: vs

/-- NOTE_OFF's effect on one voice (R151): a tail-off stop where it is active on the note. -/
def releaseIfOn (note : Nat) (v : Voice) : Voice := if v.active && v.note == note then stopVoice true v else v

/-- The mixer (R155): renders every voice in slot order and adds its sample to `acc`. -/
def mixVoices (p : Params) (b : Bank) (fs : F32) : F32 → List Voice → List Voice × F32
  | acc, [] => ([], acc)
  | acc, v :: vs =>
    let r := renderSample p b fs v
    let rest := mixVoices p b fs (fAdd acc r.2) vs
    (r.1 :: rest.1, rest.2)

/-- The gain `VOLUME / POOL_SIZE` (R156). -/
def mixGain (s : State) : F32 := fDiv s.active.volume (fOfInt s.params.poolSize)

/-- The frame guard (R157): a sample that is not finite becomes `+0.0`. -/
def guardSample (x : F32) : F32 := if isFinite x then x else 0#32

/-- The voices after one frame and the unscaled mix (R153). -/
def frameMix (s : State) : List Voice × F32 := mixVoices s.params s.active s.cfg.fs 0#32 s.voices

/-- The sample of one frame (R153, R156, R157). -/
def frameSample (s : State) : F32 := guardSample (fMul (frameMix s).2 (mixGain s))

/-- One atomic frame step of a RENDER in progress (R153, R204). -/
def frameStep (s : State) : State :=
  { s with
    voices := (frameMix s).1
    framesLeft := s.framesLeft - 1
    output := s.output ++ [monoFrame s (frameSample s)] }

/-- The answer of one R-port read, recorded for the agent that asked; nothing else changes (R46, R54 (f)). -/
def answerRead (s : State) (who : Agent) (addr : Word32) : State :=
  { s with answers := s.answers ++ [{ reader := who, addr := addr, word := memRead s addr }] }

end Sys2Proof.Machine
end

