-- ==== Sys2Proof/Machine/Engine.lean ====
section
/-! DEFINITION. The five C-port commands (`45_engine.md`). -/

namespace Sys2Proof.Machine

/-- `NOP` (R144). -/
def execNop (s : State) : Host.Outcome State Fault Refusal := .next s

/-- `PREPARE fs, maxBlock` (R145, R147): only the three `CFG` registers change. -/
def execPrepare (fs : F32) (maxBlock : Nat) (s : State) : Host.Outcome State Fault Refusal :=
  guarded (prepareCheck s.params fs maxBlock) s { s with cfg := { prepared := true, fs := fs, maxBlock := maxBlock } }

/-- `NOTE_ON note, vel` (R148, R149). -/
def execNoteOn (note : Nat) (vel : F32) (s : State) : Host.Outcome State Fault Refusal :=
  guarded (noteOnCheck note vel) s { s with voices := startFirstIdle note (clampVelocity vel) s.voices }

/-- `NOTE_OFF note, vel` (R151): the velocity is decoded and ignored. -/
def execNoteOff (note : Nat) (_vel : F32) (s : State) : Host.Outcome State Fault Refusal :=
  guarded (noteOffCheck note) s { s with voices := s.voices.map (releaseIfOn note) }

/-- The condition of a silent block (R153, R158): not prepared, or more frames than `CFG.MAX_BLOCK`. -/
def silentBlock (n : Nat) (s : State) : Bool := !s.cfg.prepared || decide (s.cfg.maxBlock < n)

/-- `RENDER n` (R153): the start of a silent block, or the latch step; either way the renderer then owes `n` frame steps (R204). -/
def execRender (n : Nat) (s : State) : Host.Outcome State Fault Refusal :=
  .next (if silentBlock n s then oweSilence s n else { latch s with framesLeft := n })

end Sys2Proof.Machine
end

