-- ==== Sys2Proof/Machine/Parameters.lean ====
section
/-! DEFINITION. The twelve P-port setters (`46_parameters.md`). Each writes `SHADOW` only. -/

namespace Sys2Proof.Machine

/-- `SET_ATTACK` (R166). -/
def execSetAttack (x : F32) (s : State) : Host.Outcome State Fault Refusal :=
  guarded (payloadCheck x) s (setShadow s { s.shadow with attack := clampPayload 0#32 noUpperBound x })

/-- `SET_DECAY` (R167). -/
def execSetDecay (x : F32) (s : State) : Host.Outcome State Fault Refusal :=
  guarded (payloadCheck x) s (setShadow s { s.shadow with decay := clampPayload 0#32 noUpperBound x })

/-- `SET_SUSTAIN` (R168). -/
def execSetSustain (x : F32) (s : State) : Host.Outcome State Fault Refusal :=
  guarded (payloadCheck x) s (setShadow s { s.shadow with sustain := clampPayload 0#32 fOne x })

/-- `SET_RELEASE` (R169). -/
def execSetRelease (x : F32) (s : State) : Host.Outcome State Fault Refusal :=
  guarded (payloadCheck x) s (setShadow s { s.shadow with release := clampPayload 0#32 noUpperBound x })

/-- `SET_CUTOFF` (R170). -/
def execSetCutoff (x : F32) (s : State) : Host.Outcome State Fault Refusal :=
  guarded (payloadCheck x) s (setShadow s { s.shadow with cutoff := clampPayload f20 f20000 x })

/-- `SET_RESONANCE` (R171). -/
def execSetResonance (x : F32) (s : State) : Host.Outcome State Fault Refusal :=
  guarded (payloadCheck x) s (setShadow s { s.shadow with resonance := clampPayload fTenth fTen x })

/-- `SET_LFO_RATE` (R172). -/
def execSetLfoRate (x : F32) (s : State) : Host.Outcome State Fault Refusal :=
  guarded (payloadCheck x) s (setShadow s { s.shadow with lfoRate := clampPayload 0#32 noUpperBound x })

/-- `SET_LFO_DEPTH` (R173). -/
def execSetLfoDepth (x : F32) (s : State) : Host.Outcome State Fault Refusal :=
  guarded (payloadCheck x) s (setShadow s { s.shadow with lfoDepth := clampPayload 0#32 noUpperBound x })

/-- The bank with a unison size and the layout recomputed in the same step (R174, R57). -/
def withUnison (p : Params) (b : Bank) (n : Nat) : Bank := { b with unison := n, ratio := layout p n b.detune }

/-- The bank with a detune and the layout recomputed in the same step (R175, R57). -/
def withDetune (p : Params) (b : Bank) (d : F32) : Bank := { b with detune := d, ratio := layout p b.unison d }

/-- `SET_UNISON` (R174): clamps, never rejects. -/
def execSetUnison (n : Nat) (s : State) : Host.Outcome State Fault Refusal :=
  .next (setShadow s (withUnison s.params s.shadow (clampUnison s.params n)))

/-- `SET_DETUNE` (R175). -/
def execSetDetune (x : F32) (s : State) : Host.Outcome State Fault Refusal :=
  guarded (payloadCheck x) s (setShadow s (withDetune s.params s.shadow (clampPayload 0#32 s.params.detuneMax x)))

/-- `SET_WAVEFORM` (R176). -/
def execSetWaveform (sel : Nat) (s : State) : Host.Outcome State Fault Refusal :=
  match waveformOf sel with
  | none => reject .selectorOutOfRange s
  | some w => .next (setShadow s { s.shadow with waveform := w })

/-- `SET_VOLUME` (R177). -/
def execSetVolume (x : F32) (s : State) : Host.Outcome State Fault Refusal :=
  guarded (payloadCheck x) s (setShadow s { s.shadow with volume := clampPayload 0#32 fOne x })

end Sys2Proof.Machine
end

