-- ==== Sys2Proof/Machine/Dispatch.lean ====
section
/-! DEFINITION. The meaning of each command, one arm per constructor of `Instr`. -/

namespace Sys2Proof.Machine

def exec (i : Instr) (s : State) : Host.Outcome State Fault Refusal :=
  match i with
  -- the C-port commands (`45_engine.md`)
  | .nop => Sys2Proof.Machine.execNop s
  | .prepare fs maxBlock => Sys2Proof.Machine.execPrepare fs maxBlock s
  | .noteOn note velocity => Sys2Proof.Machine.execNoteOn note velocity s
  | .noteOff note velocity => Sys2Proof.Machine.execNoteOff note velocity s
  | .render frames => Sys2Proof.Machine.execRender frames s
  -- the P-port setters (`46_parameters.md`)
  | .setAttack seconds => Sys2Proof.Machine.execSetAttack seconds s
  | .setDecay seconds => Sys2Proof.Machine.execSetDecay seconds s
  | .setSustain level => Sys2Proof.Machine.execSetSustain level s
  | .setRelease seconds => Sys2Proof.Machine.execSetRelease seconds s
  | .setCutoff hz => Sys2Proof.Machine.execSetCutoff hz s
  | .setResonance q => Sys2Proof.Machine.execSetResonance q s
  | .setLfoRate radPerSec => Sys2Proof.Machine.execSetLfoRate radPerSec s
  | .setLfoDepth hz => Sys2Proof.Machine.execSetLfoDepth hz s
  | .setUnison size => Sys2Proof.Machine.execSetUnison size s
  | .setDetune semitones => Sys2Proof.Machine.execSetDetune semitones s
  | .setWaveform sel => Sys2Proof.Machine.execSetWaveform sel s
  | .setVolume gain => Sys2Proof.Machine.execSetVolume gain s

end Sys2Proof.Machine
end

