-- ==== Sys2Proof/Machine/Agents.lean ====
section
/-! DEFINITION. What a step of each agent does (`20_memory.md` R53, R54) and which agent steps next. -/

namespace Sys2Proof.Machine

/-- A word taken from a port (R68, R182): the decoded command runs; a word that does not decode is rejected. -/
def runWord (port : Port) (w : Word64) (s : State) : Host.Outcome State Fault Refusal :=
  match decode port w with
  | .ok i => exec i s
  | .error r => reject r s

/-- A step of the renderer (R40, R204): a frame of the RENDER in progress, sounding or silent; else the next C-port word, whose
stream position advances whether it is executed or rejected (R22); else nothing. -/
def rendererStep (s : State) : Host.Outcome State Fault Refusal :=
  if 0 < s.framesLeft then .next (frameStep s)
  else if 0 < s.silentLeft then .next (silentStep s)
  else
    match s.cPort with
    | [] => .next s
    | w :: ws => runWord .c w { s with cPort := ws, cPos := s.cPos + 1 }

/-- A step of the control agent (R41): its next P-port word, executed at once, or its next R-port read. -/
def controlStep (s : State) : Host.Outcome State Fault Refusal :=
  match s.controlScript with
  | [] => .next s
  | .write w :: ms => runWord .p w { s with controlScript := ms, pPos := s.pPos + 1 }
  | .read a :: ms => .next (answerRead { s with controlScript := ms } .control a)

/-- A step of the host (R39, R207): its next word written to the C-port, behind those waiting there, or its next R-port
read. -/
def hostStep (s : State) : Host.Outcome State Fault Refusal :=
  match s.hostScript with
  | [] => .next s
  | .write w :: ms => .next { s with hostScript := ms, cPort := s.cPort ++ [w] }
  | .read a :: ms => .next (answerRead { s with hostScript := ms } .host a)

/-- A step of an agent; an agent with nothing to do leaves the state as it is. -/
def agentStep (a : Agent) (s : State) : Host.Outcome State Fault Refusal :=
  match a with
  | .renderer => rendererStep s
  | .control => controlStep s
  | .host => hostStep s

/-- The agent that steps where the schedule says nothing (DESIGN CHOICE, assumption log 2): the renderer while it has work, then
the control agent, then the host. -/
def idleAgent (s : State) : Agent :=
  if 0 < s.framesLeft ∨ 0 < s.silentLeft ∨ s.cPort ≠ [] then .renderer else if s.controlScript ≠ [] then .control else .host

/-- The agent that steps next: the head of the schedule (R55). -/
def nextAgent (s : State) : Agent :=
  match s.turns with
  | a :: _ => a
  | [] => idleAgent s

/-- The state with its turn taken off the schedule. -/
def takeTurn (s : State) : State := { s with turns := s.turns.tail }

/-- The state with a word where the next step fetches it: at the head of its port, that port's agent next to step, and, for
the C-port, no RENDER in progress. -/
def placeWord (port : Port) (w : Word64) (s : State) : State :=
  match port with
  | .c => { s with cPort := w :: s.cPort, framesLeft := 0, silentLeft := 0, turns := .renderer :: s.turns }
  | .p => { s with controlScript := .write w :: s.controlScript, turns := .control :: s.turns }

end Sys2Proof.Machine
end

