-- ==== Sys2Proof/Machine/Step.lean ====
section
/-! DEFINITION. One step of the machine, and where it fetches its next command. -/

namespace Sys2Proof.Machine

/-- One atomic step (`20_memory.md` R54): the agent whose turn it is takes its step. -/
def step (s : State) : Host.Outcome State Fault Refusal := agentStep (nextAgent s) (takeTurn s)

/-- The state with the word of a table row placed so that the next step runs it: on the port its row names (`tablePort`). -/
def State.withFetchWord (s : State) (nbits w : Nat) : State :=
  placeWord (tablePort (tableWord nbits w)) (tableWord nbits w) s

end Sys2Proof.Machine
end

