-- ==== Sys2Proof/Safety.lean ====
section
/-! DEFINITION. What counts as a legal state: the legal values of `00_scope.md` R9 and `10_state.md` R25 to R36, as predicates
a claim can name. `Legal` is the invariant of a run. -/

namespace Sys2Proof.Machine

/-- `+0.0` or finite positive (R27): the sign bit is clear and the value is finite. -/
def nonNeg (x : F32) : Bool := isFinite x && !fSign x

/-- In `[+0.0, hi]`. -/
def upTo (hi x : F32) : Bool := !fSign x && fLe x hi

/-- In `[+0.0, hi)`. -/
def below (hi x : F32) : Bool := !fSign x && fLt x hi

/-- In `[lo, hi]`. -/
def between (lo hi x : F32) : Bool := fLe lo x && fLe x hi

/-- The legal implementation parameters (R9). -/
structure ParamsLegal (p : Params) : Prop where
  tableLen : ∃ k, 2 ≤ k ∧ k ≤ 14 ∧ p.tableLen = 2 ^ k
  poolSize : 1 ≤ p.poolSize ∧ p.poolSize ≤ 64
  unisonMax : 1 ≤ p.unisonMax ∧ p.unisonMax ≤ 64
  numChannels : 1 ≤ p.numChannels ∧ p.numChannels ≤ 8
  envEpsilon : isFinite p.envEpsilon ∧ fLt 0#32 p.envEpsilon
  rates : fLt 0#32 p.fsMin ∧ fLe p.fsMin p.fsMax
  detuneMax : isFinite p.detuneMax ∧ fLe 0#32 p.detuneMax ∧ p.unisonMax * fMag p.detuneMax ≤ 768 * fUnit
  nyqGuard : fLt 0#32 p.nyqGuard ∧ fLt p.nyqGuard fHalf

/-- `1000.0`, the default `FS_MIN`. -/
def f1000 : F32 := 0x447A0000#32

/-- The sample rates are at least 1000 Hz: the bound R146 gives as the reason every phase sum is finite. R9 allows a smaller
`FS_MIN`, at which an increment can overflow (assumption log 24). -/
def audioRate (p : Params) : Bool := fLe f1000 p.fsMin

/-- The legal values of a bank's parameters (R27, R28). -/
structure BankLegal (p : Params) (b : Bank) : Prop where
  attack : nonNeg b.attack
  decay : nonNeg b.decay
  sustain : upTo fOne b.sustain
  release : nonNeg b.release
  cutoff : between f20 f20000 b.cutoff
  resonance : between fTenth fTen b.resonance
  lfoRate : nonNeg b.lfoRate
  lfoDepth : nonNeg b.lfoDepth
  unison : 1 ≤ b.unison ∧ b.unison ≤ p.unisonMax
  detune : between 0#32 p.detuneMax b.detune
  volume : upTo fOne b.volume

/-- `RATIO` is the layout of the bank's own `UNISON` and `DETUNE` (R29). -/
def layoutOk (p : Params) (b : Bank) : Prop := b.ratio = layout p b.unison b.detune

/-- The stage and the active bit of a voice agree (R34 (i), (ii)). -/
def coherent (v : Voice) : Prop :=
  (v.active = true → v.stage ≠ .idle) ∧ (v.active = false → v.stage = .idle ∧ v.level = 0#32 ∧ v.relStart = 0#32)

/-- The legal values of a voice's fields (R31 to R33, R34 (iii) to (v)). -/
structure VoiceLegal (p : Params) (v : Voice) : Prop where
  note : v.note ≤ 127
  velocity : upTo fOne v.velocity
  phase : below (fOfInt p.tableLen) v.phase
  level : upTo fOne v.level
  relStart : upTo fOne v.relStart
  lfoPhase : below twoPi v.lfoPhase
  cutoffEff : between f20 f20000 v.cutoffEff
  history : isFinite v.x1 ∧ isFinite v.x2 ∧ isFinite v.y1 ∧ isFinite v.y2

/-- The legal values of the configuration registers (R25). -/
def cfgLegal (p : Params) (c : CfgRegs) : Prop :=
  (c.prepared = false → c.fs = 0#32 ∧ c.maxBlock = 0) ∧
  (c.prepared = true → isFinite c.fs ∧ fLe p.fsMin c.fs ∧ fLe c.fs p.fsMax ∧ 1 ≤ c.maxBlock ∧ c.maxBlock ≤ 65535)

/-- A frame carries one finite sample on every channel (R42, R157). -/
def frameLegal (p : Params) (f : Frame) : Prop := ∃ x : F32, isFinite x ∧ f = List.replicate p.numChannels x

/-- Both banks hold the layout of their own unison size and detune (R29). -/
def LayoutsOk (s : State) : Prop := layoutOk s.params s.shadow ∧ layoutOk s.params s.active

/-- The pool has exactly `POOL_SIZE` voices, each with its stage and active bit in agreement (R31, R34 (i), (ii)). -/
def PoolOk (s : State) : Prop := s.voices.length = s.params.poolSize ∧ ∀ v ∈ s.voices, coherent v

/-- At most one RENDER is in progress, and a sounding one only on a prepared block and within its block size (R36, R40, R153). -/
def ProgressOk (s : State) : Prop :=
  (0 < s.framesLeft → s.cfg.prepared = true ∧ s.framesLeft ≤ s.cfg.maxBlock) ∧ (s.framesLeft = 0 ∨ s.silentLeft = 0)

/-- It is the renderer's turn and no RENDER is in progress: its step takes the next C-port word (R40). -/
def takesWord (s : State) : Prop := nextAgent s = .renderer ∧ s.framesLeft = 0 ∧ s.silentLeft = 0

/-- Every frame emitted so far is legal. -/
def OutputOk (s : State) : Prop := ∀ f ∈ s.output, frameLegal s.params f

/-- Every register holds one of its legal values (R25 to R36), on legal implementation parameters at audio rates. -/
structure Legal (s : State) : Prop where
  params : ParamsLegal s.params
  rate : audioRate s.params
  cfg : cfgLegal s.params s.cfg
  shadow : BankLegal s.params s.shadow
  active : BankLegal s.params s.active
  pool : s.voices.length = s.params.poolSize
  voices : ∀ v ∈ s.voices, VoiceLegal s.params v
  progress : ProgressOk s
  output : OutputOk s

/-- The command `i` is carried by exactly one word, on exactly one port: the one with these four fields (`30_encoding.md` R60 to
R65). -/
def carriedBy (i : Instr) (port : Port) (opc : Byte) (a8 u16 : Nat) (x : F32) : Prop :=
  ∀ (q : Port) (w : Word64), decode q w = .ok i ↔
    q = port ∧ opcField w = opc ∧ (a8Field w).toNat = a8 ∧ (u16Field w).toNat = u16 ∧ f32Field w = x

/-- `r` is the binary32 rounding of the exact value `q`, both in units of 2^-149 (R13, R15): the nearest finite value, with an even
fraction where two are equally near, or, from half a unit past the largest finite value on, an infinity of `q`'s sign. -/
structure RoundsTo (q : ℚ) (r : F32) : Prop where
  notNaN : isNaN r = false
  inRange : 2 * |q| < (2 ^ 25 - 1) * 2 ^ 253 →
    isFinite r ∧ ∀ y : F32, isFinite y →
      |(fVal r : ℚ) - q| ≤ |(fVal y : ℚ) - q| ∧
      (|(fVal r : ℚ) - q| = |(fVal y : ℚ) - q| → fVal y ≠ fVal r → r.toNat % 2 = 0)
  overflow : (2 ^ 25 - 1) * 2 ^ 253 ≤ 2 * |q| → r = fInf (decide (q < 0))

/-- A safe run: the machine answers a next state for ever. The WOB has no fault and no command without a meaning, so this
holds of every state (`60_exceptions.md` R181, R186). -/
def Runs (s : State) : Prop := ∀ n, ∃ t, Host.Core.run ⟨State, Fault, Refusal, step, State.reset⟩ n s = .next t

end Sys2Proof.Machine
end

