-- ==== Sys2Proof/Certificates/Slice0/Obligations.lean ====
section
/-! DEFINITION. The statements for the provers, from the numbered rules of the spec. -/

open Sys2Proof Sys2Proof.Machine

/-! ### Encoding and decoding -/

/-- R60, R62 to R65, R68: decoding the word of a well-formed command, on a port it is legal on, gives it back. -/
def Obligations.DecodeOfEncodeIsTheCommand : Prop :=
  ∀ (i : Instr) (port : Port), i.wf = true → legalOn (instrOpcode i) port = true → decode port (encode i) = .ok i

/-- R60 to R64, R68: a word that decodes is the encoding of the command it decodes to, which is well-formed and legal on the
port. So no two words decode to one command. -/
def Obligations.DecodedWordIsItsEncoding : Prop :=
  ∀ (port : Port) (w : Word64) (i : Instr), decode port w = .ok i →
    i.wf = true ∧ legalOn (instrOpcode i) port = true ∧ encode i = w

/-- R66: on either port, exactly the opcodes 0x05 to 0x0F and 0x1C to 0xFF are reserved, and a word with one changes nothing. -/
def Obligations.ReservedOpcodesRejected : Prop :=
  ∀ (port : Port) (w : Word64),
    (decode port w = .error .reservedOpcode ↔
      (0x05 ≤ (opcField w).toNat ∧ (opcField w).toNat ≤ 0x0F) ∨ 0x1C ≤ (opcField w).toNat) ∧
    (decode port w = .error .reservedOpcode → ∀ s : State, runWord port w s = .next s)

/-- R65: the C-port opcodes are rejected on the P-port, the P-port opcodes on the C-port, with no state change; each passes the
port check on its own port, and NOP on both. -/
def Obligations.WrongPortRejected : Prop :=
  ∀ w : Word64,
    (0x01 ≤ (opcField w).toNat ∧ (opcField w).toNat ≤ 0x04 →
      decode .p w = .error .wrongPort ∧ (∀ s : State, runWord .p w s = .next s) ∧ decode .c w ≠ .error .wrongPort) ∧
    (0x10 ≤ (opcField w).toNat ∧ (opcField w).toNat ≤ 0x1B →
      decode .c w = .error .wrongPort ∧ (∀ s : State, runWord .c w s = .next s) ∧ decode .p w ≠ .error .wrongPort) ∧
    (opcField w = 0x00 → decode .c w ≠ .error .wrongPort ∧ decode .p w ≠ .error .wrongPort)

/-- R64: for each opcode byte, on the port its row names, the mask of the bits that must match: a word whose masked bits are
the opcode byte decodes to a command, any other word with that opcode is rejected with no state change. -/
def Obligations.ReservedFieldRejected : Prop :=
  ∀ row ∈ ([(.c, 0x00, 0xFFFFFFFFFFFFFFFF), (.p, 0x00, 0xFFFFFFFFFFFFFFFF), (.c, 0x01, 0x000000000000FFFF),
      (.c, 0x02, 0x00000000FFFF00FF), (.c, 0x03, 0x00000000FFFF00FF), (.c, 0x04, 0xFFFFFFFF0000FFFF),
      (.p, 0x10, 0x00000000FFFFFFFF), (.p, 0x11, 0x00000000FFFFFFFF), (.p, 0x12, 0x00000000FFFFFFFF),
      (.p, 0x13, 0x00000000FFFFFFFF), (.p, 0x14, 0x00000000FFFFFFFF), (.p, 0x15, 0x00000000FFFFFFFF),
      (.p, 0x16, 0x00000000FFFFFFFF), (.p, 0x17, 0x00000000FFFFFFFF), (.p, 0x18, 0xFFFFFFFF0000FFFF),
      (.p, 0x19, 0x00000000FFFFFFFF), (.p, 0x1A, 0xFFFFFFFFFFFF00FF), (.p, 0x1B, 0x00000000FFFFFFFF)] :
      List (Port × Byte × Word64)),
    ∀ w : Word64, opcField w = row.2.1 →
      (w &&& row.2.2 = row.2.1.setWidth 64 → ∃ i, decode row.1 w = .ok i) ∧
      (w &&& row.2.2 ≠ row.2.1.setWidth 64 →
        decode row.1 w = .error .reservedField ∧ ∀ s : State, runWord row.1 w s = .next s)

/-- R72: the worked encodings, both ways, and the two rejected words. -/
def Obligations.WorkedWordsDecode : Prop :=
  decode .p 0x4743500000000014 = .ok (.setCutoff 0x47435000#32) ∧
  encode (.setCutoff 0x47435000#32) = 0x4743500000000014 ∧
  decode .c 0x3F80000000003C02 = .ok (.noteOn 60 0x3F800000#32) ∧
  encode (.noteOn 60 0x3F800000#32) = 0x3F80000000003C02 ∧
  decode .c 0x472C440002000001 = .ok (.prepare 0x472C4400#32 512) ∧
  encode (.prepare 0x472C4400#32 512) = 0x472C440002000001 ∧
  decode .c 0x0000000000000105 = .error .reservedOpcode ∧
  decode .p 0x0000000000000105 = .error .reservedOpcode ∧
  decode .c 0x0000000000010002 = .error .reservedField

/-- R43, R61: a serialized word is eight bytes, the least significant first, and the decoder reads it back from any stream that
starts with it, leaving the rest; byte 0 is the opcode. -/
def Obligations.BytesAreLittleEndian : Prop :=
  ∀ (port : Port) (w : Word64) (rest : List Byte),
    decodeBytes port (wordBytes w ++ rest) = some (decode port w, rest) ∧
    (wordBytes w).length = 8 ∧ (wordBytes w)[0]? = some (opcField w) ∧
    ∀ k < 8, (wordBytes w)[k]? = some (BitVec.ofNat 8 (w.toNat / 2 ^ (8 * k)))

/-! ### The step -/

/-- R40, R41, R22, R68: the step runs the command it decodes. On the renderer's turn, with no RENDER in progress, it is `exec` of
the next C-port word; on the control agent's turn it is `exec` of the word that agent writes. What a step adds around `exec`
is the word taken off its port, the port's position advanced, and the turn taken. That the C-port's position moves in the step that
takes the word, and that a P-port word is executed in the step that writes it, is the model's reading (assumption logs 3 and 4). -/
def Obligations.StepRunsTheDecodedCommand : Prop :=
  ∀ (s : State) (w : Word64) (i : Instr),
    (∀ ws, takesWord s → s.cPort = w :: ws → decode .c w = .ok i →
      step s = exec i { s with turns := s.turns.tail, cPort := ws, cPos := s.cPos + 1 }) ∧
    (∀ ms, nextAgent s = .control → s.controlScript = .write w :: ms → decode .p w = .ok i →
      step s = exec i { s with turns := s.turns.tail, controlScript := ms, pPos := s.pPos + 1 })

/-- R182: a rejected word, on either port, changes nothing but the stream position. The form of the step, the word taken and the
position advanced in that same step, is the model's reading (assumption logs 3, 4 and 20). -/
def Obligations.RejectedWordOnlyAdvancesThePosition : Prop :=
  ∀ (s : State) (w : Word64) (r : Rejection),
    (∀ ws, takesWord s → s.cPort = w :: ws → verdict s.params .c w = some r →
      step s = .next { s with turns := s.turns.tail, cPort := ws, cPos := s.cPos + 1 }) ∧
    (∀ ms, nextAgent s = .control → s.controlScript = .write w :: ms → verdict s.params .p w = some r →
      step s = .next { s with turns := s.turns.tail, controlScript := ms, pPos := s.pPos + 1 })

/-- R183: a word is rejected exactly under the ten conditions of the table, read off its fields. -/
def Obligations.RejectedExactlyUnderTheTenConditions : Prop :=
  ∀ (p : Params) (port : Port) (w : Word64),
    let opc := (opcField w).toNat
    let a8 := (a8Field w).toNat
    let u16 := (u16Field w).toNat
    let x := f32Field w
    let floatSetter := (0x10 ≤ opc ∧ opc ≤ 0x17) ∨ opc = 0x19 ∨ opc = 0x1B
    (verdict p port w ≠ none ↔
      ((5 ≤ opc ∧ opc ≤ 0x0F) ∨ 0x1C ≤ opc) ∨
      ((port = .p ∧ 1 ≤ opc ∧ opc ≤ 4) ∨ (port = .c ∧ 0x10 ≤ opc ∧ opc ≤ 0x1B)) ∨
      ((opc = 0 ∧ (a8 ≠ 0 ∨ u16 ≠ 0 ∨ x ≠ 0)) ∨ (opc = 1 ∧ a8 ≠ 0) ∨ ((opc = 2 ∨ opc = 3) ∧ u16 ≠ 0) ∨
        ((opc = 4 ∨ opc = 0x18) ∧ (a8 ≠ 0 ∨ x ≠ 0)) ∨ (floatSetter ∧ (a8 ≠ 0 ∨ u16 ≠ 0)) ∨
        (opc = 0x1A ∧ (u16 ≠ 0 ∨ x ≠ 0))) ∨
      (opc = 1 ∧ (isFinite x = false ∨ fVal x ≤ 0)) ∨
      (opc = 1 ∧ (fLt x p.fsMin = true ∨ fLt p.fsMax x = true)) ∨
      (opc = 1 ∧ u16 = 0) ∨
      ((opc = 2 ∨ opc = 3) ∧ 127 < a8) ∨
      (opc = 2 ∧ isNaN x = true) ∨
      (floatSetter ∧ isFinite x = false) ∨
      (opc = 0x1A ∧ 3 < a8))

/-- R181, R186, R206: no command, no frame and no step stops the machine, whatever the state. -/
def Obligations.MachineNeverStops : Prop :=
  (∀ s : State, Runs s) ∧ ∀ (i : Instr) (s : State), ∃ t, exec i s = .next t

/-- R22: a port's stream position moves by exactly one when a word is taken from it, and never otherwise. That the C-port's counts
a word when the renderer takes it and the P-port's when the control agent writes it is the model's reading (assumption logs 3
and 4). A word the host writes waits on the C-port behind those before it, and nothing else changes (R39, R40, R207; log 3). -/
def Obligations.StreamPositionCountsTakenWords : Prop :=
  (∀ (s : State) (w : Word64) (ms : List Move), nextAgent s = .host → s.hostScript = .write w :: ms →
    step s = .next { s with turns := s.turns.tail, hostScript := ms, cPort := s.cPort ++ [w] }) ∧
  ∀ s t : State, step s = .next t →
    ((takesWord s ∧ s.cPort ≠ []) → t.cPos = s.cPos + 1 ∧ t.cPort = s.cPort.tail) ∧
    (¬ (takesWord s ∧ s.cPort ≠ []) → t.cPos = s.cPos ∧ s.cPort <+: t.cPort) ∧
    ((nextAgent s = .control ∧ ∃ w ms, s.controlScript = .write w :: ms) →
      t.pPos = s.pPos + 1 ∧ t.controlScript = s.controlScript.tail) ∧
    (¬ (nextAgent s = .control ∧ ∃ w ms, s.controlScript = .write w :: ms) → t.pPos = s.pPos)

/-- R25: only an accepted PREPARE writes the configuration registers. -/
def Obligations.OnlyPrepareWritesConfiguration : Prop :=
  ∀ s t : State, step s = .next t → t.cfg ≠ s.cfg →
    ∃ w ws fs mb, takesWord s ∧ s.cPort = w :: ws ∧ decode .c w = .ok (.prepare fs mb) ∧
      prepareCheck s.params fs mb = none ∧ t.cfg = { prepared := true, fs := fs, maxBlock := mb }

/-- R154, R36, R153: the first step of a valid RENDER copies all of `SHADOW` into `ACTIVE`, also for `n = 0`, and sets `FRAMES_LEFT` to
`n`; an invalid RENDER does not latch; and nothing else writes `ACTIVE`. (That no silent frame is owed then is said in the model's own
field, assumption log 6.) -/
def Obligations.OnlyTheLatchWritesActive : Prop :=
  ∀ s t : State, step s = .next t →
    (∀ w ws n, takesWord s → s.cPort = w :: ws → decode .c w = .ok (.render n) →
      (s.cfg.prepared = true ∧ n ≤ s.cfg.maxBlock → t.active = s.shadow ∧ t.framesLeft = n ∧ t.silentLeft = 0) ∧
      (¬ (s.cfg.prepared = true ∧ n ≤ s.cfg.maxBlock) → t.active = s.active)) ∧
    (t.active ≠ s.active →
      ∃ w ws n, takesWord s ∧ s.cPort = w :: ws ∧ decode .c w = .ok (.render n) ∧
        s.cfg.prepared = true ∧ n ≤ s.cfg.maxBlock)

/-- R190, R191: who writes what. `SHADOW` changes only on the control agent's turn, `ACTIVE`, `CFG`, the voices, the frames
owed and the output only on the renderer's; emitted frames are never changed, and no step changes the implementation parameters. -/
def Obligations.EachAgentWritesItsOwnState : Prop :=
  ∀ s t : State, step s = .next t →
    t.params = s.params ∧ s.output <+: t.output ∧
    (nextAgent s ≠ .control → t.shadow = s.shadow) ∧
    (nextAgent s ≠ .renderer →
      t.active = s.active ∧ t.cfg = s.cfg ∧ t.voices = s.voices ∧ t.framesLeft = s.framesLeft ∧
        t.silentLeft = s.silentLeft ∧ t.output = s.output)

/-- R41: a P-port command writes only `SHADOW`, and what it writes depends on nothing but `SHADOW` (and the implementation
parameters). -/
def Obligations.PPortCommandsTouchShadowOnly : Prop :=
  ∀ (w : Word64) (s s' : State), s'.shadow = s.shadow → s'.params = s.params →
    ∃ b, runWord .p w s = .next { s with shadow := b } ∧ runWord .p w s' = .next { s' with shadow := b }

/-! ### The C-port commands -/

/-- R144: NOP leaves every register as it was, and the only NOP word is 0. -/
def Obligations.NopChangesNothing : Prop :=
  (∀ s : State, exec .nop s = .next s) ∧ ∀ (port : Port) (w : Word64), decode port w = .ok .nop ↔ w = 0

/-- R145: PREPARE is the C-port word with opcode 0x01, the rate in `F32` and the block size in `U16`; an accepted one writes the three `CFG` registers and nothing else; with a rate that is NaN, infinite, zero, negative
or out of range, or a block of 0, it changes nothing. -/
def Obligations.PrepareSetsTheConfiguration : Prop :=
  ∀ (s : State) (fs : F32) (mb : Nat),
    carriedBy (.prepare fs mb) .c 0x01 0 mb fs ∧
    (isFinite fs = true ∧ 0 < fVal fs ∧ fLt fs s.params.fsMin = false ∧ fLt s.params.fsMax fs = false ∧ 1 ≤ mb →
      exec (.prepare fs mb) s = .next { s with cfg := { prepared := true, fs := fs, maxBlock := mb } }) ∧
    (isFinite fs = false ∨ fVal fs ≤ 0 ∨ fLt fs s.params.fsMin = true ∨ fLt s.params.fsMax fs = true ∨ mb = 0 →
      exec (.prepare fs mb) s = .next s)

/-- R148: NOTE_ON is the C-port word with opcode 0x02, the note in `A8` and the velocity in `F32`; it starts the lowest inactive slot with the clamped velocity and changes nothing else; a note above 127 or a NaN
velocity is rejected; a full pool drops the note. -/
def Obligations.NoteOnStartsTheLowestInactiveSlot : Prop :=
  ∀ (s : State) (note : Nat) (vel : F32),
    carriedBy (.noteOn note vel) .c 0x02 note 0 vel ∧
    (∀ k v, note ≤ 127 → isNaN vel = false → s.voices[k]? = some v → v.active = false →
      (∀ j < k, ∀ u, s.voices[j]? = some u → u.active = true) →
      exec (.noteOn note vel) s = .next { s with
        voices := s.voices.set k { v with
          active := true, note := note, stage := .attack, level := 0#32, relStart := 0#32,
          velocity := if fLe vel 0#32 then 0#32 else if fLe 0x3F800000#32 vel then 0x3F800000#32 else vel,
          x1 := 0#32, x2 := 0#32, y1 := 0#32, y2 := 0#32 } }) ∧
    (127 < note ∨ isNaN vel = true → exec (.noteOn note vel) s = .next s) ∧
    ((∀ u ∈ s.voices, u.active = true) → exec (.noteOn note vel) s = .next s)

/-- R151: NOTE_OFF is the C-port word with opcode 0x03, the note in `A8` and a velocity in `F32`; it puts every active slot on the note into Release from its current level, whatever the velocity, and changes
nothing else; a note above 127 is rejected; with no matching active slot nothing changes. -/
def Obligations.NoteOffReleasesEveryMatchingSlot : Prop :=
  ∀ (s : State) (note : Nat) (vel : F32),
    carriedBy (.noteOff note vel) .c 0x03 note 0 vel ∧
    (note ≤ 127 → exec (.noteOff note vel) s = .next { s with
      voices := s.voices.map fun v =>
        if v.active = true ∧ v.note = note then { v with stage := .release, relStart := v.level } else v }) ∧
    (127 < note → exec (.noteOff note vel) s = .next s) ∧
    ((∀ v ∈ s.voices, v.active = true → v.note ≠ note) → exec (.noteOff note vel) s = .next s)

/-- R154, R158, R159: RENDER is the C-port word with opcode 0x04 and the frame count in `U16`; a valid one latches all of `SHADOW` into `ACTIVE` and sets `FRAMES_LEFT`, also for `n = 0`; one before PREPARE or
above the block size only makes the renderer owe `n` silent frames, each then a step that emits `+0.0` on every channel and changes
nothing else; so an unprepared `RENDER 0` changes nothing. That the step which takes an invalid RENDER emits none of its frames, and
the field that counts them, are the model's choice (assumption log 6). -/
def Obligations.RenderLatchesOrEmitsSilence : Prop :=
  ∀ (s : State) (n : Nat),
    carriedBy (.render n) .c 0x04 0 n 0#32 ∧
    (s.cfg.prepared = true → n ≤ s.cfg.maxBlock →
      exec (.render n) s = .next { s with active := s.shadow, framesLeft := n }) ∧
    (s.cfg.prepared = false ∨ s.cfg.maxBlock < n → exec (.render n) s = .next { s with silentLeft := n }) ∧
    (nextAgent s = .renderer → s.framesLeft = 0 → 0 < s.silentLeft →
      step s = .next { s with
        turns := s.turns.tail
        silentLeft := s.silentLeft - 1
        output := s.output ++ [List.replicate s.params.numChannels 0#32] }) ∧
    (s.cfg.prepared = false → s.silentLeft = 0 → exec (.render 0) s = .next s)

/-! ### The frame step and the mixer -/

/-- R155, R157: one frame. Every slot is rendered once, in slot order; the samples are summed in that order from `+0.0` and
scaled by `VOLUME / POOL_SIZE` (R156); a sample that is not finite is emitted as `+0.0`; every channel carries it; nothing else but
`FRAMES_LEFT` changes (and the turn is taken). -/
def Obligations.FrameMixesTheSlotsInOrder : Prop :=
  ∀ s : State, nextAgent s = .renderer → 0 < s.framesLeft →
    let r := s.voices.map fun v => renderSample s.params s.active s.cfg.fs v
    let m := fMul ((r.map fun q => q.2).foldl fAdd 0#32) (fDiv s.active.volume (fOfInt s.params.poolSize))
    step s = .next { s with
      turns := s.turns.tail
      voices := r.map fun q => q.1
      framesLeft := s.framesLeft - 1
      output := s.output ++ [List.replicate s.params.numChannels (if isFinite m then m else 0#32)] }

/-- R138: the render of an inactive voice is `+0.0` and writes nothing, and its slot holds still through every frame. -/
def Obligations.InactiveSlotHoldsStill : Prop :=
  (∀ (p : Params) (b : Bank) (fs : F32) (v : Voice), v.active = false → renderSample p b fs v = (v, 0#32)) ∧
  ∀ (s : State) (n k : Nat) (v : Voice), s.voices[k]? = some v → v.active = false →
    (frameStep^[n] s).voices[k]? = some v

/-- R137 with R117, R121, R123: an active voice's frame, by field: the LFO phase, the cutoff from its sine, the coefficients from that
cutoff, the filter on these coefficients and on the readout at the phase before it advances, the output the filter's times the level
after its advance, and step (g); note and velocity are kept. -/
def Obligations.ActiveVoiceFrameByField : Prop :=
  ∀ (p : Params) (b : Bank) (fs : F32) (v : Voice), v.active = true →
    let twoPi := 0x40C90FDB#32
    let ph := fAdd v.lfoPhase (fDiv b.lfoRate fs)
    let lfo := if fLe twoPi ph then fMod ph twoPi else ph
    let c := fAdd b.cutoff (fMul (fsin p lfo) b.lfoDepth)
    let cut := if fLe c 0x41A00000#32 then 0x41A00000#32 else if fLe 0x469C4000#32 c then 0x469C4000#32 else c
    let limit := fMul p.nyqGuard fs
    let fw := if fLe cut limit then cut else limit
    let w0 := fDiv (fMul twoPi fw) fs
    let alpha := fDiv (fsin p w0) (fMul 0x40000000#32 b.resonance)
    let a0 := fAdd 0x3F800000#32 alpha
    let t := fSub 0x3F800000#32 (fcos p w0)
    let a := { v with
      lfoPhase := lfo, cutoffEff := cut, b0 := fDiv (fMul t 0x3F000000#32) a0, b1 := fDiv t a0,
      b2 := fDiv (fMul t 0x3F000000#32) a0, a1 := fDiv (fMul 0xC0000000#32 (fcos p w0)) a0,
      a2 := fDiv (fSub 0x3F800000#32 alpha) a0 }
    let u := unisonReadout p b v.phase
    let e := envAdvance b fs v
    let w := (renderSample p b fs v).1
    (renderSample p b fs v).2 = fMul (filterOut a u) e.level ∧
    w.note = v.note ∧ w.velocity = v.velocity ∧ w.phase = fMod (fAdd v.phase (phaseInc p.tableLen fs v.note)) (fOfInt p.tableLen) ∧
    w.lfoPhase = lfo ∧ w.cutoffEff = cut ∧ w.b0 = a.b0 ∧ w.b1 = a.b1 ∧ w.b2 = a.b2 ∧ w.a1 = a.a1 ∧ w.a2 = a.a2 ∧
    w.x1 = (filterStep a u).x1 ∧ w.x2 = (filterStep a u).x2 ∧ w.y1 = (filterStep a u).y1 ∧ w.y2 = (filterStep a u).y2 ∧
    (e.stage = .idle ∨ (e.stage = .release ∧ fLt e.level p.envEpsilon = true) →
      w.active = false ∧ w.stage = .idle ∧ w.level = 0#32 ∧ w.relStart = 0#32) ∧
    (¬ (e.stage = .idle ∨ (e.stage = .release ∧ fLt e.level p.envEpsilon = true)) →
      w.active = true ∧ w.stage = e.stage ∧ w.level = e.level ∧ w.relStart = v.relStart)

/-- R139: a start stores the velocity; it changes no output and no other state, and only the `VELOCITY` word of the R-port shows it. -/
def Obligations.VelocityIsNeverHeard : Prop :=
  (∀ (note : Nat) (x : F32) (v : Voice), (startVoice note x v).velocity = x) ∧
  ∀ (s : State) (x : F32),
    let s' := { s with voices := s.voices.map fun v => { v with velocity := x } }
    (frameStep s').output = (frameStep s).output ∧
    (frameStep s').voices = (frameStep s).voices.map (fun v => { v with velocity := x }) ∧
    ∀ a : Word32, ¬ (0x1000 ≤ a.toNat ∧ a.toNat < 0x1000 + 16 * s.params.poolSize ∧ (a.toNat - 0x1000) % 16 = 1) →
      s.voices.length = s.params.poolSize → memRead s' a = memRead s a

/-- R160: with no voice active at the latch, the whole block is zeros on every channel, whatever the volume. -/
def Obligations.BlockWithoutActiveVoicesIsZero : Prop :=
  ∀ (s : State) (n : Nat), 1 ≤ s.params.poolSize → s.params.poolSize ≤ 64 → upTo fOne s.active.volume = true →
    (∀ v ∈ s.voices, v.active = false) →
    (frameStep^[n] s).voices = s.voices ∧
    (frameStep^[n] s).output = s.output ++ List.replicate n (List.replicate s.params.numChannels 0#32)

/-- R186, R204, R206: a RENDER at the head of the C-port, given `n + 1` turns of the renderer, emits exactly `n` frames and completes;
a valid one latches, an invalid one's frames are all zero and nothing else changes. That the position moves in the step that takes
the word, and that an invalid RENDER too takes one step before its frames, is the model's (assumption logs 3 and 6). -/
def Obligations.RenderEmitsExactlyItsFrames : Prop :=
  ∀ (s : State) (n : Nat) (ws : List Word64) (ts : List Agent), n ≤ 65535 → s.framesLeft = 0 → s.silentLeft = 0 →
    s.cPort = encode (.render n) :: ws → s.turns = List.replicate (n + 1) .renderer ++ ts →
    ∃ t, Host.Core.run core (n + 1) s = .next t ∧ t.framesLeft = 0 ∧ t.silentLeft = 0 ∧ t.cPort = ws ∧ t.cPos = s.cPos + 1 ∧
      t.turns = ts ∧ t.shadow = s.shadow ∧ t.cfg = s.cfg ∧ s.output <+: t.output ∧ t.output.length = s.output.length + n ∧
      (s.cfg.prepared = true ∧ n ≤ s.cfg.maxBlock → t.active = s.shadow) ∧
      (¬ (s.cfg.prepared = true ∧ n ≤ s.cfg.maxBlock) → t.active = s.active ∧ t.voices = s.voices ∧
        t.output = s.output ++ List.replicate n (List.replicate s.params.numChannels 0#32))

/-- R54 (d), R41, R59: whatever the control agent and the host do between its frames, a RENDER in progress, sounding or silent, emits the
frames, and leaves the voices, that it would without them. -/
def Obligations.InterleavingCannotChangeABlock : Prop :=
  ∀ s : State, s.turns.count .renderer = s.framesLeft + s.silentLeft →
    ∃ t, Host.Core.run core s.turns.length s = .next t ∧ t.turns = [] ∧ t.framesLeft = 0 ∧ t.silentLeft = 0 ∧
      t.output = (silentStep^[s.silentLeft] (frameStep^[s.framesLeft] s)).output ∧
      t.voices = (frameStep^[s.framesLeft] s).voices ∧ t.active = s.active ∧ t.cfg = s.cfg

/-! ### Voice operations -/

/-- R132 to R136: a start restarts the envelope and keeps both phases, the coefficients and the cutoff, and of an inactive voice it clears
the filter history; a stop with tail-off enters Release from the current level, one without deactivates, keeping everything but four
registers; an inactive voice is left alone. -/
def Obligations.StartAndStopWriteTheirRegisters : Prop :=
  ∀ (note : Nat) (vel : F32) (v : Voice),
    (v.active = true → startVoice note vel v =
      { v with note := note, velocity := vel, active := true, stage := .attack, level := 0#32, relStart := 0#32 }) ∧
    (v.active = false → startVoice note vel v =
      { v with note := note, velocity := vel, active := true, stage := .attack, level := 0#32, relStart := 0#32,
               x1 := 0#32, x2 := 0#32, y1 := 0#32, y2 := 0#32 }) ∧
    (v.active = true → stopVoice true v = { v with stage := .release, relStart := v.level }) ∧
    (v.active = true → stopVoice false v =
      { v with active := false, stage := .idle, level := 0#32, relStart := 0#32 }) ∧
    (∀ tailOff, v.active = false → stopVoice tailOff v = v)

/-- R105 to R110: one advance of the envelope in each stage. -/
def Obligations.EnvelopeAdvancesByStage : Prop :=
  ∀ (b : Bank) (fs : F32) (v : Voice),
    let up := fAdd v.level (fDiv 0x3F800000#32 (fMul b.attack fs))
    let dn := fSub v.level (fDiv (fSub 0x3F800000#32 b.sustain) (fMul b.decay fs))
    let rl := fSub v.level (fDiv v.relStart (fMul b.release fs))
    (v.stage = .attack → envAdvance b fs v =
      if fEq b.attack 0#32 ∨ fLe 0x3F800000#32 up then { v with level := 0x3F800000#32, stage := .decay }
      else { v with level := up }) ∧
    (v.stage = .decay → envAdvance b fs v =
      if fEq b.decay 0#32 ∨ fLe dn b.sustain then { v with level := b.sustain, stage := .sustain }
      else { v with level := dn }) ∧
    (v.stage = .sustain → envAdvance b fs v = { v with level := b.sustain }) ∧
    (v.stage = .release → envAdvance b fs v =
      if fEq b.release 0#32 ∨ fLe rl 0#32 then { v with level := 0#32, stage := .idle } else { v with level := rl }) ∧
    (v.stage = .idle → envAdvance b fs v = { v with level := 0#32 })

/-- R114 (ii): if `ATTACK * FS ≤ 2^24`, every attack reaches 1.0 and enters Decay in finitely many frames. -/
def Obligations.AttackReachesFullLevel : Prop :=
  ∀ (b : Bank) (fs : F32) (v : Voice), nonNeg b.attack = true → isFinite fs = true → fLt 0#32 fs = true →
    fLe (fMul b.attack fs) 0x4B800000#32 = true → v.stage = .attack → upTo fOne v.level = true →
    ∃ n, ((envAdvance b fs)^[n] v).stage = .decay ∧ ((envAdvance b fs)^[n] v).level = fOne

/-- R114 (iii): if `RELEASE * FS ≤ 2^23`, every release reaches Idle in finitely many frames. The premise that `REL_START` is 0 or not
subnormal is the model's: the step of a subnormal one can round to 0, and the level then stands still. -/
def Obligations.ReleaseReachesIdle : Prop :=
  ∀ (b : Bank) (fs : F32) (v : Voice),
    (fEq b.release 0#32 = true ∨ (fLt 0#32 (fMul b.release fs) = true ∧ fLe (fMul b.release fs) 0x4B000000#32 = true)) →
    v.stage = .release → upTo fOne v.relStart = true → upTo v.relStart v.level = true →
    (v.relStart = 0#32 ∨ fLe 0x00800000#32 v.relStart = true) →
    ∃ n, ((envAdvance b fs)^[n] v).stage = .idle ∧ ((envAdvance b fs)^[n] v).level = 0#32

/-- R126, R127: the filter's history shifts by one where its sum is finite, and is cleared, with output `+0.0`, where it is not. -/
def Obligations.FilterShiftsOrClearsItsHistory : Prop :=
  ∀ (v : Voice) (x : F32),
    let y := fSub (fSub (fAdd (fAdd (fMul v.b0 x) (fMul v.b1 v.x1)) (fMul v.b2 v.x2)) (fMul v.a1 v.y1)) (fMul v.a2 v.y2)
    (isFinite y = true → filterOut v x = y ∧
      filterStep v x = { v with x1 := x, x2 := v.x1, y1 := y, y2 := v.y1 }) ∧
    (isFinite y = false → filterOut v x = 0#32 ∧
      filterStep v x = { v with x1 := 0#32, x2 := 0#32, y1 := 0#32, y2 := 0#32 })

/-! ### The oscillator and the tables -/

/-- R85, R86, R87 (i): the increment of a note is `(C * SEMI[r]) * 2^q` with `C = (f32(L) * 440.0) / FS`, where `note - 69 = 12 q + r`
(`2^q` is the pattern with exponent field `127 + q`); and twelve notes up it is exactly twice as large. -/
def Obligations.OctaveDoublesTheIncrement : Prop :=
  ∀ (L : Nat) (fs : F32) (n : Nat), n ≤ 127 →
    (∀ (q : Int) (r : Nat) (x : F32), (n : Int) - 69 = 12 * q + r →
      [0x3F800000#32, 0x3F879C7D#32, 0x3F8FACD6#32, 0x3F9837F0#32, 0x3FA14518#32, 0x3FAADC08#32, 0x3FB504F3#32, 0x3FBFC887#32,
        0x3FCB2FF5#32, 0x3FD744FD#32, 0x3FE411F0#32, 0x3FF1A1BF#32][r]? = some x →
      phaseInc L fs n =
        fMul (fMul (fDiv (fMul (fOfInt L) 0x43DC0000#32) fs) x) (BitVec.ofInt 32 ((127 + q) * 2 ^ 23))) ∧
    (4 ≤ L → L ≤ 16384 → isFinite fs = true → fLt 0#32 fs = true → n ≤ 115 →
      phaseInc L fs (n + 12) = fMul 0x40000000#32 (phaseInc L fs n))

/-- R87 (ii): the increment rises strictly with the note, at every finite rate from 2^-100 up. (R9 sets no lower limit to a legal rate; at
the smallest ones the increment overflows.) -/
def Obligations.IncrementRisesWithTheNote : Prop :=
  ∀ (L : Nat) (fs : F32) (n : Nat), 4 ≤ L → L ≤ 16384 → fLe 0x0D800000#32 fs = true → isFinite fs = true →
    n ≤ 126 → fLt (phaseInc L fs n) (phaseInc L fs (n + 1)) = true

/-- R96: a layout has exactly `N` entries in use, the first `N`, each positive, and at detune 0 each is exactly 1.0. -/
def Obligations.LayoutHasExactlyNEntries : Prop :=
  ∀ (p : Params) (N : Nat) (D : F32), ParamsLegal p → 1 ≤ N → N ≤ p.unisonMax → between 0#32 p.detuneMax D = true →
    (layout p N D).length = p.unisonMax ∧
    (∀ i < N, ∃ x, (layout p N D)[i]? = some x ∧ fLt 0#32 x = true) ∧
    (∀ i, N ≤ i → i < p.unisonMax → (layout p N D)[i]? = some 0#32) ∧
    (fVal D = 0 → layout p N D = List.replicate N 0x3F800000#32 ++ List.replicate (p.unisonMax - N) 0#32)

/-- R98, R99, R100 (i): the readout of `N` oscillators is the sum, in order from `+0.0`, of the entries at `roundHalfUp` of
`fmod(PHASE * RATIO[i], L)`, modulo `L`, divided by `N`; it lies in `[-1.0, 1.0]`; and with `UNISON = 1`, whatever the detune, it is
exactly the table entry nearest the phase. -/
def Obligations.SingleOscillatorReadsTheTable : Prop :=
  ∀ (p : Params) (b : Bank) (phase : F32),
    (b.unison ≤ b.ratio.length →
      unisonReadout p b phase = fDiv
        ((b.ratio.take b.unison).foldl (fun sum ratio => fAdd sum (tableEntry p.tableLen b.waveform
          (roundHalfUp (fMod (fMul phase ratio) (fOfInt p.tableLen)) % (p.tableLen : Int)).toNat)) 0#32)
        (fOfInt b.unison)) ∧
    (ParamsLegal p → 1 ≤ b.unison → b.unison ≤ 64 → between 0xBF800000#32 0x3F800000#32 (unisonReadout p b phase) = true) ∧
    (ParamsLegal p → b.unison = 1 → layoutOk p b → isFinite b.detune = true → below (fOfInt p.tableLen) phase = true →
      isFinite (unisonReadout p b phase) = true ∧
      fVal (unisonReadout p b phase) =
        fVal (tableEntry p.tableLen b.waveform (roundHalfUp phase % (p.tableLen : Int)).toNat))

/-- R74: every entry of every table is in `[-1.0, 1.0]`, at every legal table length. -/
def Obligations.TableEntriesAreBounded : Prop :=
  ∀ (k : Nat) (w : Waveform) (i : Nat), 2 ≤ k → k ≤ 14 → i < 2 ^ k →
    fLe 0xBF800000#32 (tableEntry (2 ^ k) w i) = true ∧ fLe (tableEntry (2 ^ k) w i) 0x3F800000#32 = true

/-- R78, R79, R80: the square, triangle and sawtooth tables hold the exact values of their formulas (in units of 2^-149), zeros
positive. -/
def Obligations.LinearTablesAreExact : Prop :=
  ∀ (k i : Nat), 2 ≤ k → k ≤ 14 → i < 2 ^ k →
    let L : Int := 2 ^ k
    let unit : Int := 2 ^ 149
    (∀ w, w ≠ .sine → isFinite (tableEntry (2 ^ k) w i) = true ∧ tableEntry (2 ^ k) w i ≠ 0x80000000#32) ∧
    fVal (tableEntry (2 ^ k) .square i) = (if 2 * (i : Int) < L then unit else -unit) ∧
    L * fVal (tableEntry (2 ^ k) .triangle i) =
      (if 4 * (i : Int) < L then 4 * (i : Int) else if 4 * (i : Int) < 3 * L then 2 * L - 4 * i else 4 * i - 4 * L) * unit ∧
    L * fVal (tableEntry (2 ^ k) .sawtooth i) = (2 * i - L) * unit

/-! ### Arithmetic -/

/-- R13: every `+`, `-`, `*`, `/` of finite operands (a divisor not zero) is the exact result rounded once, to nearest, ties to even, with
an overflow to infinity. An exact zero sum or difference is `+0.0` unless both terms are negative zeros. The sign of a product or quotient is
the exclusive or of the operands' signs. An infinite operand, a zero divisor and a NaN give what IEEE 754 says, and every comparison
with a NaN is false. -/
def Obligations.ArithmeticRoundsToNearestEven : Prop :=
  ∀ a b : F32,
    let inf (neg : Bool) : F32 := if neg then 0xFF800000#32 else 0x7F800000#32
    let zero (neg : Bool) : F32 := if neg then 0x80000000#32 else 0#32
    let sign := fSign a != fSign b
    (isFinite a = true → isFinite b = true →
      RoundsTo ((fVal a : ℚ) + fVal b) (fAdd a b) ∧
      RoundsTo ((fVal a : ℚ) - fVal b) (fSub a b) ∧
      RoundsTo ((fVal a : ℚ) * fVal b / 2 ^ 149) (fMul a b) ∧
      (fVal b ≠ 0 → RoundsTo ((fVal a : ℚ) * 2 ^ 149 / fVal b) (fDiv a b)) ∧
      (fVal a + fVal b = 0 → fAdd a b = zero (fSign a && fSign b)) ∧
      (fVal a - fVal b = 0 → fSub a b = zero (fSign a && !fSign b)) ∧
      fSign (fMul a b) = sign ∧
      (fVal b ≠ 0 → fSign (fDiv a b) = sign) ∧
      (fVal a ≠ 0 → fVal b = 0 → fDiv a b = inf sign) ∧
      (fVal a = 0 → fVal b = 0 → isNaN (fDiv a b) = true)) ∧
    (isInf a = true → isFinite b = true →
      fAdd a b = a ∧ fAdd b a = a ∧ fSub a b = a ∧ fSub b a = inf (!fSign a) ∧ fDiv a b = inf sign ∧ fDiv b a = zero sign ∧
      (fVal b ≠ 0 → fMul a b = inf sign ∧ fMul b a = inf sign) ∧
      (fVal b = 0 → isNaN (fMul a b) = true ∧ isNaN (fMul b a) = true)) ∧
    (isInf a = true → isInf b = true →
      fMul a b = inf sign ∧ isNaN (fDiv a b) = true ∧
      (sign = false → fAdd a b = a ∧ isNaN (fSub a b) = true) ∧ (sign = true → isNaN (fAdd a b) = true ∧ fSub a b = a)) ∧
    (isNaN a = true ∨ isNaN b = true →
      isNaN (fAdd a b) = true ∧ isNaN (fSub a b) = true ∧ isNaN (fMul a b) = true ∧ isNaN (fDiv a b) = true ∧
      fLe a b = false ∧ fLt a b = false ∧ fEq a b = false)

/-- R19, R18, R15: the properties R19 lists hold of every choice of `TRANSCENDENTAL`. R19 speaks of the opaque choices (log 15); under
`CR` they follow from R18 and R15 with the model's reading of `CR` at zero and outside the finite range (assumption logs 13 and 14): a
`2^x` below the smallest positive value rounds to 0 there, so positivity is stated from -149 on. -/
def Obligations.TranscendentalsKeepTheirProperties : Prop :=
  ∀ p : Params,
    fsin p 0#32 = 0#32 ∧ fexp2 p 0#32 = 0x3F800000#32 ∧ fexp2 p 0x80000000#32 = 0x3F800000#32 ∧
    (∀ k : Int, k.natAbs ≤ 126 → fexp2 p (fOfInt k) = fPow2 k) ∧
    (∀ x, isFinite x = true →
      between 0xBF800000#32 0x3F800000#32 (fsin p x) = true ∧ between 0xBF800000#32 0x3F800000#32 (fcos p x) = true ∧
      isNaN (fexp2 p x) = false) ∧
    (∀ x, isFinite x = true → p.transcendental = .anyAllowed ∨ -149 * (2 ^ 149 : Int) ≤ fVal x →
      fLt 0#32 (fexp2 p x) = true)

/-- R18, R77: under `CR`, no f32 is nearer to the exact sine or cosine than the one answered, up to 2^-350 (the fixed point of the model
has 512 fraction bits, assumption log 11); no f32 is nearer to `2^x` than `fexp2` answers, up to `2^x / 2^60` (an infinite answer
counts as 2^128, logs 11, 12 and 14); and no f32 is nearer to `sin(2π·i/L)` than entry `i` of the sine table, up to 2^-60 (logs 11
and 12), which at the quarters is exactly `+0.0`, `1.0`, `+0.0`, `-1.0`. -/
def Obligations.SineAndCosineAreNearest : Prop :=
  (∀ (p : Params) (x y : F32), p.transcendental = .cr → isFinite x = true → isFinite y = true →
    |(fVal (fsin p x) : ℝ) / 2 ^ 149 - Real.sin (fVal x / 2 ^ 149)| ≤
      |(fVal y : ℝ) / 2 ^ 149 - Real.sin (fVal x / 2 ^ 149)| + 1 / 2 ^ 350 ∧
    |(fVal (fcos p x) : ℝ) / 2 ^ 149 - Real.cos (fVal x / 2 ^ 149)| ≤
      |(fVal y : ℝ) / 2 ^ 149 - Real.cos (fVal x / 2 ^ 149)| + 1 / 2 ^ 350 ∧
    let power : ℝ := (2 : ℝ) ^ ((fVal x : ℝ) / 2 ^ 149)
    |(fVal (fexp2 p x) : ℝ) / 2 ^ 149 - power| ≤ |(fVal y : ℝ) / 2 ^ 149 - power| + power / 2 ^ 60) ∧
  ∀ k : Nat, 2 ≤ k → k ≤ 14 →
    let entry (i : Nat) := tableEntry (2 ^ k) .sine i
    (∀ (i : Nat) (y : F32), i < 2 ^ k → isFinite y = true →
      isFinite (entry i) = true ∧
      |(fVal (entry i) : ℝ) / 2 ^ 149 - Real.sin (2 * Real.pi * i / 2 ^ k)| ≤
        |(fVal y : ℝ) / 2 ^ 149 - Real.sin (2 * Real.pi * i / 2 ^ k)| + 1 / 2 ^ 60) ∧
    entry 0 = 0#32 ∧ entry (2 ^ k / 4) = 0x3F800000#32 ∧ entry (2 ^ k / 2) = 0#32 ∧ entry (3 * 2 ^ k / 4) = 0xBF800000#32

/-- R123: at every legal cutoff and Q, at every rate of the default range and with the default `NYQ_GUARD`, under `CR`, every coefficient
is finite, `B0` is not negative, and `B2 = B0`. -/
def Obligations.FilterCoefficientsAreFinite : Prop :=
  ∀ (p : Params) (b : Bank) (fs : F32) (v : Voice), p.transcendental = .cr → p.nyqGuard = 0x3EFAE148#32 →
    fLe 0x447A0000#32 fs = true → fLe fs 0x493B8000#32 = true → between fTenth fTen b.resonance = true →
    between f20 f20000 v.cutoffEff = true →
    let w := coeffStep p b fs v
    isFinite w.b0 = true ∧ isFinite w.b1 = true ∧ isFinite w.b2 = true ∧ isFinite w.a1 = true ∧ isFinite w.a2 = true ∧
      0 ≤ fVal w.b0 ∧ w.b2 = w.b0

/-! ### The setters -/

/-- R164, R166 to R169, R177: the envelope and volume setters are the P-port words with their opcode and the payload in `F32`; they store the clamped payload in their own `SHADOW` register and change nothing
else; a NaN or an infinity is rejected. -/
def Obligations.EnvelopeSettersStoreTheClampedValue : Prop :=
  ∀ (s : State) (x : F32),
    carriedBy (.setAttack x) .p 0x10 0 0 x ∧ carriedBy (.setDecay x) .p 0x11 0 0 x ∧ carriedBy (.setSustain x) .p 0x12 0 0 x ∧
    carriedBy (.setRelease x) .p 0x13 0 0 x ∧ carriedBy (.setVolume x) .p 0x1B 0 0 x ∧
    (isFinite x = true →
      exec (.setAttack x) s = .next { s with shadow := { s.shadow with attack := if fLe x 0#32 then 0#32 else x } } ∧
      exec (.setDecay x) s = .next { s with shadow := { s.shadow with decay := if fLe x 0#32 then 0#32 else x } } ∧
      exec (.setSustain x) s = .next { s with shadow := { s.shadow with
        sustain := if fLe x 0#32 then 0#32 else if fLe 0x3F800000#32 x then 0x3F800000#32 else x } } ∧
      exec (.setRelease x) s = .next { s with shadow := { s.shadow with release := if fLe x 0#32 then 0#32 else x } } ∧
      exec (.setVolume x) s = .next { s with shadow := { s.shadow with
        volume := if fLe x 0#32 then 0#32 else if fLe 0x3F800000#32 x then 0x3F800000#32 else x } }) ∧
    (isFinite x = false → ∀ i ∈ [Instr.setAttack x, .setDecay x, .setSustain x, .setRelease x, .setVolume x],
      exec i s = .next s)

/-- R164, R170 to R173: the filter and LFO setters are the P-port words with their opcode and the payload in `F32`; they store the
clamped payload in their own `SHADOW` register and change nothing else; a NaN or an infinity is rejected. -/
def Obligations.FilterSettersStoreTheClampedValue : Prop :=
  ∀ (s : State) (x : F32),
    carriedBy (.setCutoff x) .p 0x14 0 0 x ∧ carriedBy (.setResonance x) .p 0x15 0 0 x ∧
    carriedBy (.setLfoRate x) .p 0x16 0 0 x ∧ carriedBy (.setLfoDepth x) .p 0x17 0 0 x ∧
    (isFinite x = true →
      exec (.setCutoff x) s = .next { s with shadow := { s.shadow with
        cutoff := if fLe x 0x41A00000#32 then 0x41A00000#32 else if fLe 0x469C4000#32 x then 0x469C4000#32 else x } } ∧
      exec (.setResonance x) s = .next { s with shadow := { s.shadow with
        resonance := if fLe x 0x3DCCCCCD#32 then 0x3DCCCCCD#32 else if fLe 0x41200000#32 x then 0x41200000#32 else x } } ∧
      exec (.setLfoRate x) s = .next { s with shadow := { s.shadow with lfoRate := if fLe x 0#32 then 0#32 else x } } ∧
      exec (.setLfoDepth x) s = .next { s with shadow := { s.shadow with lfoDepth := if fLe x 0#32 then 0#32 else x } }) ∧
    (isFinite x = false → ∀ i ∈ [Instr.setCutoff x, .setResonance x, .setLfoRate x, .setLfoDepth x], exec i s = .next s)

/-- R174, R95: SET_UNISON is the P-port word with opcode 0x18 and the size in `U16`; it stores the size clamped to `[1, UNISON_MAX]` and the whole layout of it and the current detune, and changes
nothing else. -/
def Obligations.SetUnisonStoresSizeAndLayout : Prop :=
  ∀ (s : State) (n : Nat),
    let N := min (max n 1) s.params.unisonMax
    carriedBy (.setUnison n) .p 0x18 0 n 0#32 ∧
    exec (.setUnison n) s = .next { s with shadow := { s.shadow with
      unison := N
      ratio := (List.range s.params.unisonMax).map fun i =>
        if i < N then fexp2 s.params (fDiv (fMul (fOfInt ((i : Int) - (N : Int) / 2)) s.shadow.detune) 0x41400000#32)
        else 0#32 } }

/-- R175, R95: SET_DETUNE is the P-port word with opcode 0x19 and the detune in `F32`; it stores the clamped detune and the whole layout of it and the current size, and changes nothing else; a NaN or
an infinity is rejected. -/
def Obligations.SetDetuneStoresDetuneAndLayout : Prop :=
  ∀ (s : State) (x : F32),
    let D := if fLe x 0#32 then 0#32 else if fLe s.params.detuneMax x then s.params.detuneMax else x
    let N := s.shadow.unison
    carriedBy (.setDetune x) .p 0x19 0 0 x ∧
    (isFinite x = true → exec (.setDetune x) s = .next { s with shadow := { s.shadow with
      detune := D
      ratio := (List.range s.params.unisonMax).map fun i =>
        if i < N then fexp2 s.params (fDiv (fMul (fOfInt ((i : Int) - (N : Int) / 2)) D) 0x41400000#32) else 0#32 } }) ∧
    (isFinite x = false → exec (.setDetune x) s = .next s)

/-- R176, R75: SET_WAVEFORM is the P-port word with opcode 0x1A and the selector in `A8`; 0 stores Sine, 1 Square, 2 Triangle and 3
Sawtooth, nothing else changes, and every other selector is rejected. -/
def Obligations.SetWaveformStoresTheSelector : Prop :=
  ∀ (s : State) (sel : Nat),
    carriedBy (.setWaveform sel) .p 0x1A sel 0 0#32 ∧
    exec (.setWaveform 0) s = .next { s with shadow := { s.shadow with waveform := .sine } } ∧
    exec (.setWaveform 1) s = .next { s with shadow := { s.shadow with waveform := .square } } ∧
    exec (.setWaveform 2) s = .next { s with shadow := { s.shadow with waveform := .triangle } } ∧
    exec (.setWaveform 3) s = .next { s with shadow := { s.shadow with waveform := .sawtooth } } ∧
    (3 < sel → exec (.setWaveform sel) s = .next s)

/-- R178: a second identical setter changes nothing. -/
def Obligations.SettersAreIdempotent : Prop :=
  ∀ (i : Instr) (s t : State), legalOn (instrOpcode i) .p = true → exec i s = .next t → exec i t = .next t

/-- R179: the final layout depends only on the final size and detune, whatever order the two setters came in. -/
def Obligations.UnisonAndDetuneCommute : Prop :=
  ∀ (s : State) (n : Nat) (x : F32), isFinite x = true →
    ∃ u d t, exec (.setUnison n) s = .next u ∧ exec (.setDetune x) s = .next d ∧
      exec (.setDetune x) u = .next t ∧ exec (.setUnison n) d = .next t ∧ layoutOk s.params t.shadow

/-! ### Invariants -/

/-- R25 to R36: every step keeps every register at one of its legal values, on legal implementation parameters at audio rates (assumption
log 24). -/
def Obligations.LegalValuesArePreserved : Prop :=
  ∀ s t : State, Legal s → step s = .next t → Legal t

/-- R29, R57: every step keeps both banks' layouts in agreement with their own size and detune. -/
def Obligations.LayoutsArePreserved : Prop :=
  ∀ s t : State, LayoutsOk s → step s = .next t → LayoutsOk t

/-- R31, R34 (i), (ii): every step keeps the pool's size and the agreement of stage and active bit in every slot. -/
def Obligations.PoolCoherenceIsPreserved : Prop :=
  ∀ s t : State, PoolOk s → step s = .next t → PoolOk t

/-- R196, with R25, R27, R29, R31 to R34, R36: on every legal choice of parameters, the reset state has both layouts, the coherent pool, every
register at a legal value and no RENDER in progress; and where `FS_MIN` is at least 1000.0, the premise of `Legal` that is the model's
(assumption log 24), it meets `Legal`. -/
def Obligations.ResetMeetsTheInvariants : Prop :=
  ∀ p : Params, ParamsLegal p → LayoutsOk (State.resetOf p) ∧ PoolOk (State.resetOf p) ∧
    cfgLegal p (State.resetOf p).cfg ∧ BankLegal p (State.resetOf p).shadow ∧ BankLegal p (State.resetOf p).active ∧
    (∀ v ∈ (State.resetOf p).voices, VoiceLegal p v) ∧ ProgressOk (State.resetOf p) ∧ OutputOk (State.resetOf p) ∧ (audioRate p = true → Legal (State.resetOf p))

/-- R194, R195: the reset value of every register, and the ROM's contents. (The parameters as a field of the state are assumption log
1's; that no silent frame is owed is log 25's.) -/
def Obligations.ResetState : Prop :=
  ∀ p : Params,
    let s := State.resetOf p
    let bank : Bank := {
      attack := 0x3DCCCCCD#32, decay := 0x3DCCCCCD#32, sustain := 0x3F800000#32, release := 0x3DCCCCCD#32,
      cutoff := 0x469C4000#32, resonance := 0x3F3504F3#32, lfoRate := 0#32, lfoDepth := 0#32, unison := 1, detune := 0#32,
      waveform := .sine, volume := 0x3F800000#32, ratio := 0x3F800000#32 :: List.replicate (p.unisonMax - 1) 0#32 }
    let voice : Voice := {
      active := false, note := 0, velocity := 0#32, phase := 0#32, stage := .idle, level := 0#32, relStart := 0#32,
      lfoPhase := 0#32, cutoffEff := 0x469C4000#32, b0 := 0#32, b1 := 0#32, b2 := 0#32, a1 := 0#32, a2 := 0#32,
      x1 := 0#32, x2 := 0#32, y1 := 0#32, y2 := 0#32 }
    State.reset = State.resetOf Params.default ∧ s.params = p ∧
    s.cfg = { prepared := false, fs := 0#32, maxBlock := 0 } ∧ s.shadow = bank ∧ s.active = bank ∧
    s.voices = List.replicate p.poolSize voice ∧ s.framesLeft = 0 ∧ s.silentLeft = 0 ∧ s.cPos = 0 ∧ s.pPos = 0 ∧
    (ParamsLegal p → ∀ i < p.tableLen, ∀ q ∈ ([(0, .sine), (1, .square), (2, .triangle), (3, .sawtooth)] : List (Nat × Waveform)),
      memRead s (BitVec.ofNat 32 (0x10000 + q.1 * p.tableLen + i)) = tableEntry p.tableLen q.2 i)

/-! ### The R-port -/

/-- R47: an address the map does not name reads 0. -/
def Obligations.UnmappedAddressesReadZero : Prop :=
  ∀ (s : State) (a : Word32), 4 ≤ a.toNat → ¬ (0x0100 ≤ a.toNat ∧ a.toNat < 0x010C) →
    ¬ (0x0180 ≤ a.toNat ∧ a.toNat < 0x0180 + s.params.unisonMax) → ¬ (0x0200 ≤ a.toNat ∧ a.toNat < 0x020C) →
    ¬ (0x0280 ≤ a.toNat ∧ a.toNat < 0x0280 + s.params.unisonMax) →
    ¬ (0x1000 ≤ a.toNat ∧ a.toNat < 0x1000 + 16 * s.params.poolSize) →
    ¬ (0x10000 ≤ a.toNat ∧ a.toNat < 0x10000 + 4 * s.params.tableLen) → memRead s a = 0

/-- R48, R51, R52: the words of the configuration, of both banks and of the tables stand at the addresses of the map. -/
def Obligations.RportReadsConfigBanksAndTables : Prop :=
  ∀ s : State, ParamsLegal s.params → s.active.ratio.length = s.params.unisonMax → s.shadow.ratio.length = s.params.unisonMax →
    let words (b : Bank) : List Word32 :=
      [b.attack, b.decay, b.sustain, b.release, b.cutoff, b.resonance, b.lfoRate, b.lfoDepth, BitVec.ofNat 32 b.unison,
       b.detune, (match b.waveform with | .sine => 0#32 | .square => 1#32 | .triangle => 2#32 | .sawtooth => 3#32), b.volume]
    memRead s 1#32 = s.cfg.fs ∧ memRead s 2#32 = BitVec.ofNat 32 s.cfg.maxBlock ∧
    (∀ i < 12, (words s.active)[i]? = some (memRead s (BitVec.ofNat 32 (0x0100 + i)))) ∧
    (∀ i < 12, (words s.shadow)[i]? = some (memRead s (BitVec.ofNat 32 (0x0200 + i)))) ∧
    (∀ i < s.params.unisonMax, s.active.ratio[i]? = some (memRead s (BitVec.ofNat 32 (0x0180 + i)))) ∧
    (∀ i < s.params.unisonMax, s.shadow.ratio[i]? = some (memRead s (BitVec.ofNat 32 (0x0280 + i)))) ∧
    ∀ i < s.params.tableLen, ∀ q ∈ ([(0, .sine), (1, .square), (2, .triangle), (3, .sawtooth)] : List (Nat × Waveform)),
      memRead s (BitVec.ofNat 32 (0x10000 + q.1 * s.params.tableLen + i)) = tableEntry s.params.tableLen q.2 i

/-- R48, R50: word `f` of slot `k` stands at `0x1000 + 16k + f`: the status word, bit by bit, and then the fifteen registers. -/
def Obligations.RportReadsEveryVoiceRegister : Prop :=
  ∀ (s : State) (k : Nat) (v : Voice), ParamsLegal s.params → s.voices.length = s.params.poolSize → s.voices[k]? = some v →
    v.note < 256 →
    let word (f : Nat) := memRead s (BitVec.ofNat 32 (0x1000 + 16 * k + f))
    (word 0).getLsbD 0 = v.active ∧
    ((word 0).extractLsb' 1 3).toNat =
      (match v.stage with | .idle => 0 | .attack => 1 | .decay => 2 | .sustain => 3 | .release => 4) ∧
    (word 0).extractLsb' 4 4 = 0 ∧ ((word 0).extractLsb' 8 8).toNat = v.note ∧ (word 0).extractLsb' 16 16 = 0 ∧
    ∀ f < 15, [v.velocity, v.phase, v.level, v.relStart, v.lfoPhase, v.cutoffEff, v.b0, v.b1, v.b2, v.a1, v.a2, v.x1, v.x2,
      v.y1, v.y2][f]? = some (word (f + 1))

/-- R49: the block words, bit by bit. -/
def Obligations.BlockWordsPackTheirFields : Prop :=
  ∀ s : State, ParamsLegal s.params → s.voices.length = s.params.poolSize →
    (memRead s 0#32).getLsbD 0 = s.cfg.prepared ∧ (memRead s 0#32).extractLsb' 1 7 = 0 ∧
    ((memRead s 0#32).extractLsb' 8 8).toNat = (s.voices.filter fun v => v.active).length ∧
    (memRead s 0#32).extractLsb' 16 16 = 0 ∧
    ((memRead s 3#32).extractLsb' 0 8).toNat = s.params.poolSize ∧
    ((memRead s 3#32).extractLsb' 8 8).toNat = s.params.unisonMax ∧
    ((memRead s 3#32).extractLsb' 16 8).toNat = s.params.numChannels ∧
    2 ^ ((memRead s 3#32).extractLsb' 24 8).toNat = s.params.tableLen ∧
    (s.params = Params.default → memRead s 3#32 = 0x0A020810#32)

/-- R46, R45, R54 (f): a read by either agent answers the word in the state its step follows and changes nothing else. -/
def Obligations.ReadsChangeNothing : Prop :=
  ∀ (s : State) (a : Word32) (ms : List Move),
    (nextAgent s = .control → s.controlScript = .read a :: ms →
      step s = .next { s with turns := s.turns.tail, controlScript := ms,
                              answers := s.answers ++ [{ reader := .control, addr := a, word := memRead s a }] }) ∧
    (nextAgent s = .host → s.hostScript = .read a :: ms →
      step s = .next { s with turns := s.turns.tail, hostScript := ms,
                              answers := s.answers ++ [{ reader := .host, addr := a, word := memRead s a }] })
end

