-- ==== Sys2Proof/Laws/Float.lean ====
section
/-! SUPPORT. The theory of the binary32 rounding of Machine/Float.lean: the magnitude bits order the magnitudes, `roundMag` is
the nearest magnitude with ties to even, and from that, monotonicity and exactness of every operation's rounding. -/

namespace Sys2Proof.Laws

open Sys2Proof.Machine

/-! ### Magnitudes -/

/-- Magnitude bits as exponent step `e` and significand `m`: the magnitude is `m * 2^e`, also at the carry `m = 2^24`. -/
theorem magOf_split (e m : Nat) (hm : m ≤ 2 ^ 24) (h : e = 0 ∨ 2 ^ 23 ≤ m) : magOf (e * 2 ^ 23 + m) = m * 2 ^ e := by
  unfold magOf
  rcases Nat.lt_or_ge m (2 ^ 23) with hlt | hge
  · have he : e = 0 := by omega
    subst he
    rw [if_pos (by omega)]; simp
  · rw [if_neg (by omega)]
    rcases Nat.lt_or_ge m (2 ^ 24) with h24 | h24
    · have h1 : (e * 2 ^ 23 + m) % 2 ^ 23 = m - 2 ^ 23 := by omega
      have h2 : (e * 2 ^ 23 + m) / 2 ^ 23 - 1 = e := by omega
      rw [h1, h2, Nat.add_sub_cancel' hge]
    · have h1 : (e * 2 ^ 23 + m) % 2 ^ 23 = 0 := by omega
      have h2 : (e * 2 ^ 23 + m) / 2 ^ 23 - 1 = e + 1 := by omega
      have h3 : m = 2 ^ 23 * 2 := by omega
      rw [h1, h2, h3, pow_succ]
      ring

/-- Every magnitude-bits number splits as in `magOf_split`. -/
theorem exists_split (b : Nat) : ∃ e m, b = e * 2 ^ 23 + m ∧ m < 2 ^ 24 ∧ (e = 0 ∨ 2 ^ 23 ≤ m) :=
  ⟨b / 2 ^ 23 - 1, b - (b / 2 ^ 23 - 1) * 2 ^ 23, by omega, by omega, by omega⟩

theorem magOf_lt_succ (b : Nat) : magOf b < magOf (b + 1) := by
  obtain ⟨e, m, rfl, hm, h⟩ := exists_split b
  rw [magOf_split e m (by omega) h, Nat.add_assoc, magOf_split e (m + 1) (by omega) (by omega)]
  have := Nat.two_pow_pos e
  nlinarith

/-- The magnitude bits order the magnitudes. -/
theorem magOf_strictMono : StrictMono magOf := strictMono_nat_of_lt_succ magOf_lt_succ

theorem magOf_le_iff {a b : Nat} : magOf a ≤ magOf b ↔ a ≤ b := magOf_strictMono.le_iff_le

theorem magOf_lt_iff {a b : Nat} : magOf a < magOf b ↔ a < b := magOf_strictMono.lt_iff_lt

theorem magOf_inj {a b : Nat} : magOf a = magOf b ↔ a = b := magOf_strictMono.injective.eq_iff

@[simp] theorem magOf_zero : magOf 0 = 0 := by decide

/-! ### Rounding to nearest, ties to even -/

/-- `b` is the nearest magnitude to `num/den`, ties to even: `num/den` lies between the midpoints to the two neighbours of `b`,
and on a midpoint only where `b` is even. -/
def IsNearest (num den b : Nat) : Prop :=
  (2 * num < (magOf b + magOf (b + 1)) * den ∨ (2 * num = (magOf b + magOf (b + 1)) * den ∧ b % 2 = 0)) ∧
  (b = 0 ∨ (magOf (b - 1) + magOf b) * den < 2 * num ∨ ((magOf (b - 1) + magOf b) * den = 2 * num ∧ b % 2 = 0))

/-- `roundMag` answers the nearest magnitude, ties to even. -/
theorem roundMag_nearest (num den : Nat) (hd : 0 < den) : IsNearest num den (roundMag num den) := by
  unfold roundMag
  set q := num / den with hq
  set e := Nat.log2 q - 23 with he
  have hpe := Nat.two_pow_pos e
  set ulp := den * 2 ^ e with hulp
  have hulp0 : 0 < ulp := Nat.mul_pos hd hpe
  set m := num / ulp with hm
  set r := num % ulp with hr
  have hnum : ulp * m + r = num := Nat.div_add_mod num ulp
  have hrlt : r < ulp := Nat.mod_lt _ hulp0
  have hmq : m = q / 2 ^ e := by rw [hm, hulp, hq, Nat.div_div_eq_div_mul]
  have hqlt : q < 2 ^ (Nat.log2 q + 1) := Nat.lt_log2_self
  have hm24 : m < 2 ^ 24 := by
    rw [hmq, Nat.div_lt_iff_lt_mul hpe, ← pow_add]
    exact lt_of_lt_of_le hqlt (Nat.pow_le_pow_right (by norm_num) (by omega))
  have hnorm : e = 0 ∨ 2 ^ 23 ≤ m := by
    rcases Nat.eq_zero_or_pos e with h | h
    · exact .inl h
    · right
      have hq0 : q ≠ 0 := by
        intro h0
        rw [h0] at he
        simp at he
        omega
      rw [hmq, Nat.le_div_iff_mul_le hpe, ← pow_add]
      exact le_trans (Nat.pow_le_pow_right (by norm_num) (by omega)) (Nat.log2_self_le hq0)
  have hb0 : magOf (e * 2 ^ 23 + m) = m * 2 ^ e := magOf_split e m (by omega) hnorm
  have hb1 : magOf (e * 2 ^ 23 + m + 1) = (m + 1) * 2 ^ e := by
    rw [Nat.add_assoc]
    exact magOf_split e (m + 1) (by omega) (by omega)
  have hpar : (e * 2 ^ 23 + m) % 2 = m % 2 := by omega
  have hsum : (magOf (e * 2 ^ 23 + m) + magOf (e * 2 ^ 23 + m + 1)) * den = 2 * (ulp * m) + ulp := by
    rw [hb0, hb1, hulp]; ring
  show IsNearest num den (e * 2 ^ 23 + if ulp < 2 * r ∨ (2 * r = ulp ∧ m % 2 = 1) then m + 1 else m)
  split
  · next hup =>
    have hup' : ulp ≤ 2 * r := by omega
    rw [← Nat.add_assoc]
    refine ⟨.inl ?_, .inr ?_⟩
    · have h2 := magOf_lt_succ (e * 2 ^ 23 + m + 1)
      have h3 : 2 * (ulp * m) + 2 * ulp = 2 * magOf (e * 2 ^ 23 + m + 1) * den := by rw [hb1, hulp]; ring
      have h4 : 2 * magOf (e * 2 ^ 23 + m + 1) * den ≤
          (magOf (e * 2 ^ 23 + m + 1) + magOf (e * 2 ^ 23 + m + 1 + 1)) * den :=
        Nat.mul_le_mul_right _ (by omega)
      omega
    · rw [Nat.add_sub_cancel, hsum]
      rcases hup with h | ⟨h, hodd⟩
      · exact .inl (by omega)
      · exact .inr ⟨by omega, by rw [Nat.add_mod, hpar, hodd]⟩
  · next hdown =>
    rw [not_or] at hdown
    refine ⟨?_, ?_⟩
    · rw [hsum]
      rcases Nat.lt_or_ge (2 * r) ulp with h | h
      · exact .inl (by omega)
      · refine .inr ⟨by omega, ?_⟩
        rw [hpar]
        have := hdown.2
        omega
    · rcases Nat.eq_zero_or_pos (e * 2 ^ 23 + m) with h | h
      · exact .inl h
      · refine .inr (.inl ?_)
        have h1 := magOf_lt_succ (e * 2 ^ 23 + m - 1)
        rw [Nat.sub_add_cancel h] at h1
        have h2 : (magOf (e * 2 ^ 23 + m - 1) + magOf (e * 2 ^ 23 + m)) * den <
            2 * magOf (e * 2 ^ 23 + m) * den := Nat.mul_lt_mul_of_pos_right (by omega) hd
        have h3 : 2 * magOf (e * 2 ^ 23 + m) * den = 2 * (ulp * m) := by rw [hb0, hulp]; ring
        omega

/-- The nearest magnitude grows with the rational. -/
theorem nearest_mono {n₁ d₁ b₁ n₂ d₂ b₂ : Nat} (hd₁ : 0 < d₁) (hd₂ : 0 < d₂) (h₁ : IsNearest n₁ d₁ b₁)
    (h₂ : IsNearest n₂ d₂ b₂) (h : n₁ * d₂ ≤ n₂ * d₁) : b₁ ≤ b₂ := by
  by_contra hlt
  rw [not_le] at hlt
  have hm : magOf b₂ + magOf (b₂ + 1) ≤ magOf (b₁ - 1) + magOf b₁ :=
    Nat.add_le_add (magOf_le_iff.2 (by omega)) (magOf_le_iff.2 (by omega))
  have hlow := h₁.2
  have hup := h₂.1
  set M := magOf (b₁ - 1) + magOf b₁ with hM
  set K := magOf b₂ + magOf (b₂ + 1) with hK
  have e₁ : M * d₁ ≤ 2 * n₁ := by omega
  have e₂ : 2 * n₂ ≤ K * d₂ := by omega
  have f₁ : M * d₁ * d₂ ≤ 2 * n₁ * d₂ := Nat.mul_le_mul_right _ e₁
  have f₂ : 2 * n₂ * d₁ ≤ K * d₂ * d₁ := Nat.mul_le_mul_right _ e₂
  have f₃ : K * d₂ * d₁ ≤ M * d₂ * d₁ := Nat.mul_le_mul_right _ (Nat.mul_le_mul_right _ hm)
  have f₄ : M * d₂ * d₁ = M * d₁ * d₂ := by ring
  have f₅ : 2 * n₁ * d₂ = 2 * (n₁ * d₂) := by ring
  have f₆ : 2 * n₂ * d₁ = 2 * (n₂ * d₁) := by ring
  have g₁ : M * d₁ = 2 * n₁ := Nat.eq_of_mul_eq_mul_right hd₂ (by omega)
  have g₂ : 2 * n₂ = K * d₂ := Nat.eq_of_mul_eq_mul_right hd₁ (by omega)
  have g₃ : K = M := Nat.eq_of_mul_eq_mul_right (Nat.mul_pos hd₂ hd₁) (by rw [← mul_assoc, ← mul_assoc]; omega)
  have hpar₁ : b₁ % 2 = 0 := by omega
  have hpar₂ : b₂ % 2 = 0 := by omega
  have : magOf b₂ < magOf (b₁ - 1) := magOf_lt_iff.2 (by omega)
  have : magOf (b₂ + 1) ≤ magOf b₁ := magOf_le_iff.2 (by omega)
  omega

theorem roundMag_mono {n₁ d₁ n₂ d₂ : Nat} (hd₁ : 0 < d₁) (hd₂ : 0 < d₂) (h : n₁ * d₂ ≤ n₂ * d₁) :
    roundMag n₁ d₁ ≤ roundMag n₂ d₂ :=
  nearest_mono hd₁ hd₂ (roundMag_nearest n₁ d₁ hd₁) (roundMag_nearest n₂ d₂ hd₂) h

/-- The nearest magnitude is unique. -/
theorem nearest_unique {num den b : Nat} (hd : 0 < den) (h : IsNearest num den b) : roundMag num den = b :=
  le_antisymm (nearest_mono hd hd (roundMag_nearest num den hd) h le_rfl)
    (nearest_mono hd hd h (roundMag_nearest num den hd) le_rfl)

/-- A magnitude rounds to itself. -/
theorem roundMag_exact {num den b : Nat} (hd : 0 < den) (h : num = magOf b * den) : roundMag num den = b := by
  refine nearest_unique hd ⟨.inl ?_, ?_⟩
  · have := Nat.mul_lt_mul_of_pos_right (magOf_lt_succ b) hd
    rw [add_mul]; omega
  · rcases Nat.eq_zero_or_pos b with hb | hb
    · exact .inl hb
    · refine .inr (.inl ?_)
      have h1 := magOf_lt_succ (b - 1)
      rw [Nat.sub_add_cancel hb] at h1
      have := Nat.mul_lt_mul_of_pos_right h1 hd
      rw [add_mul]; omega

theorem roundMag_le {num den b : Nat} (hd : 0 < den) (h : num ≤ magOf b * den) : roundMag num den ≤ b := by
  have := roundMag_mono (n₁ := num) (n₂ := magOf b * den) hd hd (Nat.mul_le_mul_right _ h)
  rwa [roundMag_exact hd rfl] at this

theorem le_roundMag {num den b : Nat} (hd : 0 < den) (h : magOf b * den ≤ num) : b ≤ roundMag num den := by
  have := roundMag_mono (n₁ := magOf b * den) (n₂ := num) hd hd (Nat.mul_le_mul_right _ h)
  rwa [roundMag_exact hd rfl] at this

/-! ### Sign and magnitude bits of a pattern -/

theorem fBits_lt (x : F32) : fBits x < 2 ^ 31 := Nat.mod_lt _ (by norm_num)

theorem toNat_eq (x : F32) : x.toNat = (if fSign x then 2 ^ 31 else 0) + fBits x := by
  have := x.isLt
  unfold fSign fBits
  by_cases h : 2 ^ 31 ≤ x.toNat
  · rw [decide_eq_true h, if_pos rfl]; omega
  · rw [decide_eq_false h, if_neg (by simp)]; omega

/-- A pattern is its sign and its magnitude bits. -/
theorem f32_ext {x y : F32} (hs : fSign x = fSign y) (hb : fBits x = fBits y) : x = y :=
  BitVec.eq_of_toNat_eq (by rw [toNat_eq x, toNat_eq y, hs, hb])

/-- The pattern with given sign and magnitude bits. -/
theorem fSign_ofNat (neg : Bool) (b : Nat) (hb : b < 2 ^ 31) :
    fSign (BitVec.ofNat 32 ((if neg then 2 ^ 31 else 0) + b)) = neg := by
  unfold fSign
  rw [BitVec.toNat_ofNat]
  cases neg <;> simp <;> omega

theorem fBits_ofNat (neg : Bool) (b : Nat) (hb : b < 2 ^ 31) :
    fBits (BitVec.ofNat 32 ((if neg then 2 ^ 31 else 0) + b)) = b := by
  unfold fBits
  rw [BitVec.toNat_ofNat]
  cases neg <;> simp <;> omega

theorem min_infBits_lt (b : Nat) : min b infBits < 2 ^ 31 := by
  unfold infBits
  omega

@[simp] theorem fSign_roundF (neg : Bool) (num den : Nat) : fSign (roundF neg num den) = neg :=
  fSign_ofNat _ _ (min_infBits_lt _)

@[simp] theorem fBits_roundF (neg : Bool) (num den : Nat) :
    fBits (roundF neg num den) = min (roundMag num den) infBits :=
  fBits_ofNat _ _ (min_infBits_lt _)

theorem fMag_roundF (neg : Bool) (num den : Nat) :
    fMag (roundF neg num den) = magOf (min (roundMag num den) infBits) := by
  unfold fMag
  rw [fBits_roundF]

@[simp] theorem isNaN_roundF (neg : Bool) (num den : Nat) : isNaN (roundF neg num den) = false := by
  simp [isNaN]

theorem isFinite_not_nan {x : F32} (h : isFinite x = true) : isNaN x = false := by
  simp only [isFinite, isNaN, decide_eq_true_eq, decide_eq_false_iff_not] at *
  omega

theorem isFinite_not_inf {x : F32} (h : isFinite x = true) : isInf x = false := by
  simp only [isFinite, isInf, decide_eq_true_eq, decide_eq_false_iff_not] at *
  omega

/-- Rounding bounded above by a finite magnitude stays finite. -/
theorem roundF_finite {neg : Bool} {num den b : Nat} (hd : 0 < den) (hb : b < infBits) (h : num ≤ magOf b * den) :
    isFinite (roundF neg num den) = true := by
  have := roundMag_le hd h
  simp only [isFinite, fBits_roundF, decide_eq_true_eq]
  omega

theorem fMag_le_iff {x y : F32} : fMag x ≤ fMag y ↔ fBits x ≤ fBits y := magOf_le_iff

theorem fMag_lt_iff {x y : F32} : fMag x < fMag y ↔ fBits x < fBits y := magOf_lt_iff

theorem fMag_eq_zero {x : F32} : fMag x = 0 ↔ fBits x = 0 := by
  have h := magOf_inj (a := fBits x) (b := 0)
  rwa [magOf_zero] at h

theorem fVal_pos {x : F32} (h : fSign x = false) : fVal x = (fMag x : Int) := by simp [fVal, h]

theorem fVal_neg {x : F32} (h : fSign x = true) : fVal x = -(fMag x : Int) := by simp [fVal, h]

theorem natAbs_fVal (x : F32) : (fVal x).natAbs = fMag x := by
  unfold fVal
  split <;> simp

/-- A value that is not a NaN is the rounding of its own sign and magnitude. -/
theorem roundF_self {x : F32} (h : isNaN x = false) : roundF (fSign x) (fMag x) 1 = x := by
  apply f32_ext
  · simp
  · rw [fBits_roundF, roundMag_exact (b := fBits x) (by norm_num) (by simp [fMag])]
    simp only [isNaN, decide_eq_false_iff_not] at h
    omega

end Sys2Proof.Laws
end

