-- ==== Sys2Proof/Laws/Arith.lean ====
section
/-! SUPPORT. What each binary32 operation answers on the operands the WOB's rules form: finite values, and values that are
neither NaN nor negative. -/

namespace Sys2Proof.Laws

open Sys2Proof.Machine

/-- Neither NaN nor negative: the sign bit is clear; `+inf` is allowed. -/
def PosVal (x : F32) : Prop := isNaN x = false ∧ fSign x = false

theorem posVal_roundF (num den : Nat) : PosVal (roundF false num den) := ⟨by simp, by simp⟩

theorem isFinite_iff {x : F32} : isFinite x = true ↔ fBits x < infBits := by simp [isFinite]

theorem isInf_iff {x : F32} : isInf x = true ↔ fBits x = infBits := by simp [isInf]

theorem isNaN_false_iff {x : F32} : isNaN x = false ↔ fBits x ≤ infBits := by simp [isNaN]

theorem finite_or_inf {x : F32} (h : isNaN x = false) : isFinite x = true ∨ isInf x = true := by
  rw [isFinite_iff, isInf_iff]
  rw [isNaN_false_iff] at h
  omega

@[simp] theorem fSign_zero : fSign 0#32 = false := by decide
@[simp] theorem fBits_zero : fBits 0#32 = 0 := by decide
@[simp] theorem fMag_zero : fMag 0#32 = 0 := by decide
@[simp] theorem fVal_zero : fVal 0#32 = 0 := by decide
@[simp] theorem isFinite_zero : isFinite 0#32 = true := by decide
@[simp] theorem isNaN_zero : isNaN 0#32 = false := by decide
@[simp] theorem fSign_one : fSign fOne = false := by decide
@[simp] theorem isFinite_one : isFinite fOne = true := by decide
@[simp] theorem isNaN_one : isNaN fOne = false := by decide
theorem fMag_one : fMag fOne = fUnit := by decide

@[simp] theorem fSign_fZero (neg : Bool) : fSign (fZero neg) = neg := by cases neg <;> decide
@[simp] theorem fBits_fZero (neg : Bool) : fBits (fZero neg) = 0 := by cases neg <;> decide
@[simp] theorem fSign_fInf (neg : Bool) : fSign (fInf neg) = neg := by cases neg <;> decide
@[simp] theorem fBits_fInf (neg : Bool) : fBits (fInf neg) = infBits := by cases neg <;> decide

theorem fUnit_pos : 0 < fUnit := by decide

/-- The NaN an operation answers is a NaN, whatever its pattern. -/
theorem isNaN_fNaN (src : NaNSource) (a b : F32) : isNaN (fNaN src a b) = true := by
  unfold fNaN
  split
  · assumption
  · decide

/-! ### Comparison -/

theorem fLe_iff {a b : F32} : fLe a b = true ↔ isNaN a = false ∧ isNaN b = false ∧ fVal a ≤ fVal b := by
  simp [fLe, and_assoc]

theorem fLt_iff {a b : F32} : fLt a b = true ↔ isNaN a = false ∧ isNaN b = false ∧ fVal a < fVal b := by
  simp [fLt, and_assoc]

theorem fEq_iff {a b : F32} : fEq a b = true ↔ isNaN a = false ∧ isNaN b = false ∧ fVal a = fVal b := by
  simp [fEq, and_assoc]

/-- On values with a clear sign bit the magnitude bits decide. -/
theorem fVal_le_iff_of_pos {a b : F32} (ha : fSign a = false) (hb : fSign b = false) :
    fVal a ≤ fVal b ↔ fBits a ≤ fBits b := by
  rw [fVal_pos ha, fVal_pos hb, Int.ofNat_le, fMag_le_iff]

theorem fVal_lt_iff_of_pos {a b : F32} (ha : fSign a = false) (hb : fSign b = false) :
    fVal a < fVal b ↔ fBits a < fBits b := by
  rw [fVal_pos ha, fVal_pos hb, Int.ofNat_lt, fMag_lt_iff]

theorem fVal_nonneg_of_pos {a : F32} (ha : fSign a = false) : 0 ≤ fVal a := by
  rw [fVal_pos ha]; exact Int.natCast_nonneg _

/-- A value above a non-negative one has a clear sign bit. -/
theorem fSign_of_lt {a b : F32} (ha : 0 ≤ fVal a) (h : fVal a < fVal b) : fSign b = false := by
  cases hb : fSign b
  · rfl
  · rw [fVal_neg hb] at h; omega

/-- A value of at least 1 unit has a clear sign bit. -/
theorem fSign_of_pos {b : F32} (h : 0 < fVal b) : fSign b = false := by
  cases hb : fSign b
  · rfl
  · rw [fVal_neg hb] at h; omega

/-! ### Negation -/

theorem toNat_fNeg (x : F32) : (fNeg x).toNat = if 2 ^ 31 ≤ x.toNat then x.toNat - 2 ^ 31 else x.toNat + 2 ^ 31 := by
  have hx := x.isLt
  unfold fNeg
  rw [BitVec.toNat_add]
  simp only [BitVec.toNat_ofNat]
  split <;> omega

@[simp] theorem fSign_fNeg (x : F32) : fSign (fNeg x) = !fSign x := by
  have hx := x.isLt
  unfold fSign
  rw [toNat_fNeg]
  by_cases h : 2 ^ 31 ≤ x.toNat
  · rw [if_pos h, decide_eq_true h, decide_eq_false (by omega)]; rfl
  · rw [if_neg h, decide_eq_false h, decide_eq_true (by omega)]; rfl

@[simp] theorem fBits_fNeg (x : F32) : fBits (fNeg x) = fBits x := by
  have hx := x.isLt
  unfold fBits
  rw [toNat_fNeg]
  split <;> omega

@[simp] theorem fMag_fNeg (x : F32) : fMag (fNeg x) = fMag x := by simp [fMag]

@[simp] theorem fVal_fNeg (x : F32) : fVal (fNeg x) = -fVal x := by
  unfold fVal
  rw [fSign_fNeg, fMag_fNeg]
  cases fSign x <;> simp

@[simp] theorem isNaN_fNeg (x : F32) : isNaN (fNeg x) = isNaN x := by simp [isNaN]
@[simp] theorem isInf_fNeg (x : F32) : isInf (fNeg x) = isInf x := by simp [isInf]
@[simp] theorem isFinite_fNeg (x : F32) : isFinite (fNeg x) = isFinite x := by simp [isFinite]

/-! ### The operations on finite operands -/

/-- The exact sum, rounded once. -/
theorem fAdd_finite {a b : F32} (ha : isFinite a = true) (hb : isFinite b = true) :
    fAdd a b = if fVal a + fVal b = 0 then fZero (fSign a && fSign b)
      else roundF (decide (fVal a + fVal b < 0)) (fVal a + fVal b).natAbs 1 := by
  simp [fAdd, fSum, isFinite_not_nan ha, isFinite_not_nan hb, isFinite_not_inf ha, isFinite_not_inf hb]

/-- The exact difference, rounded once. -/
theorem fSub_finite {a b : F32} (ha : isFinite a = true) (hb : isFinite b = true) :
    fSub a b = if fVal a - fVal b = 0 then fZero (fSign a && !fSign b)
      else roundF (decide (fVal a - fVal b < 0)) (fVal a - fVal b).natAbs 1 := by
  simp [fSub, fSum, isFinite_not_nan ha, isFinite_not_nan hb, isFinite_not_inf ha, isFinite_not_inf hb, sub_eq_add_neg]

/-- The exact product, rounded once. -/
theorem fMul_finite {a b : F32} (ha : isFinite a = true) (hb : isFinite b = true) :
    fMul a b = roundF (fSign a != fSign b) (fMag a * fMag b) fUnit := by
  simp [fMul, isFinite_not_nan ha, isFinite_not_nan hb, isFinite_not_inf ha, isFinite_not_inf hb]

/-- The exact quotient by a value that is not zero, rounded once. -/
theorem fDiv_finite {a b : F32} (ha : isFinite a = true) (hb : isFinite b = true) (h0 : fMag b ≠ 0) :
    fDiv a b = roundF (fSign a != fSign b) (fMag a * fUnit) (fMag b) := by
  simp [fDiv, isFinite_not_nan ha, isFinite_not_nan hb, isFinite_not_inf ha, isFinite_not_inf hb, h0]

theorem roundMag_zero (den : Nat) (hd : 0 < den) : roundMag 0 den = 0 := roundMag_exact hd (by simp)

theorem roundF_zero (neg : Bool) {den : Nat} (hd : 0 < den) : roundF neg 0 den = fZero neg := by
  apply f32_ext
  · simp
  · simp [roundMag_zero den hd]

/-- The sum of two values with clear sign bits. -/
theorem fAdd_pos {a b : F32} (ha : isFinite a = true) (hb : isFinite b = true) (sa : fSign a = false)
    (sb : fSign b = false) : fAdd a b = roundF false (fMag a + fMag b) 1 := by
  rw [fAdd_finite ha hb, fVal_pos sa, fVal_pos sb, ← Int.natCast_add]
  split
  · next h =>
    have : fMag a + fMag b = 0 := by exact_mod_cast h
    rw [this, roundF_zero _ (by norm_num)]
    simp [sa]
  · rw [decide_eq_false (by omega), Int.natAbs_natCast]

/-- The sum of two values neither NaN nor negative is one. -/
theorem posVal_fAdd {a b : F32} (ha : PosVal a) (hb : PosVal b) : PosVal (fAdd a b) := by
  rcases finite_or_inf ha.1 with fa | ia
  · rcases finite_or_inf hb.1 with fb | ib
    · rw [fAdd_pos fa fb ha.2 hb.2]; exact posVal_roundF _ _
    · have : fAdd a b = b := by simp [fAdd, fSum, ha.1, hb.1, isFinite_not_inf fa, ib]
      rw [this]; exact hb
  · have : fAdd a b = a := by simp [fAdd, fSum, ha.1, hb.1, ia, ha.2, hb.2]
    rw [this]; exact ha

/-- The product of two finite values with clear sign bits. -/
theorem fMul_pos {a b : F32} (ha : isFinite a = true) (hb : isFinite b = true) (sa : fSign a = false)
    (sb : fSign b = false) : fMul a b = roundF false (fMag a * fMag b) fUnit := by
  rw [fMul_finite ha hb, sa, sb]; rfl

/-- A finite value with clear sign bit, divided by one that is neither NaN, negative nor zero. -/
theorem posVal_fDiv {a b : F32} (ha : isFinite a = true) (sa : fSign a = false) (hb : PosVal b) (h0 : fBits b ≠ 0) :
    PosVal (fDiv a b) := by
  rcases finite_or_inf hb.1 with fb | ib
  · rw [fDiv_finite ha fb (by rwa [Ne, fMag_eq_zero]), sa, hb.2]
    exact posVal_roundF _ _
  · have : fDiv a b = fZero false := by
      simp [fDiv, isFinite_not_nan ha, hb.1, isFinite_not_inf ha, ib, sa, hb.2]
    rw [this]; exact ⟨by decide, by decide⟩

/-- A finite value less one that is neither NaN nor negative is not a NaN and not above it. -/
theorem fSub_le {a b : F32} (ha : isFinite a = true) (hb : PosVal b) :
    isNaN (fSub a b) = false ∧ fVal (fSub a b) ≤ fVal a := by
  rcases finite_or_inf hb.1 with fb | ib
  · rw [fSub_finite ha fb, fVal_pos hb.2]
    have hb0 : (0 : Int) ≤ (fMag b : Int) := Int.natCast_nonneg _
    split
    · next h =>
      refine ⟨by cases fSign a <;> cases fSign b <;> decide, ?_⟩
      have : fVal (fZero (fSign a && !fSign b)) = 0 := by cases fSign a <;> cases fSign b <;> decide
      omega
    · next h =>
      refine ⟨by simp, ?_⟩
      have hfa := isFinite_iff.1 ha
      generalize hz : fVal a - (fMag b : Int) = z at h ⊢
      by_cases hneg : z < 0
      · rw [decide_eq_true hneg, fVal_neg (by simp), fMag_roundF]
        cases sa : fSign a
        · rw [fVal_pos sa]; omega
        · rw [fVal_neg sa] at hz ⊢
          have hle : fBits a ≤ roundMag z.natAbs 1 :=
            le_roundMag (by norm_num) (show fMag a * 1 ≤ _ by omega)
          have : fMag a ≤ magOf (min (roundMag z.natAbs 1) infBits) := magOf_le_iff.2 (by omega)
          omega
      · rw [decide_eq_false hneg, fVal_pos (by simp), fMag_roundF]
        cases sa : fSign a
        · rw [fVal_pos sa] at hz ⊢
          have hle : roundMag z.natAbs 1 ≤ fBits a :=
            roundMag_le (by norm_num) (show _ ≤ fMag a * 1 by omega)
          have : magOf (min (roundMag z.natAbs 1) infBits) ≤ fMag a := magOf_le_iff.2 (by omega)
          omega
        · rw [fVal_neg sa] at hz; omega
  · have hval : fSub a b = fNeg b := by
      simp [fSub, fSum, isFinite_not_nan ha, hb.1, isFinite_not_inf ha, ib]
    rw [hval]
    refine ⟨by simp [hb.1], ?_⟩
    rw [fVal_fNeg, fVal_pos hb.2]
    have h1 : fMag a ≤ fMag b := magOf_le_iff.2 (by
      have := isFinite_iff.1 ha; have := isInf_iff.1 ib; omega)
    have h2 := natAbs_fVal a
    omega

/-- Adding `+0.0` to a value that is not a NaN and not `-0.0` gives it back. -/
theorem fAdd_zero_left {x : F32} (h : isFinite x = true) (hz : x ≠ 0x80000000#32) : fAdd 0#32 x = x := by
  rw [fAdd_finite (by decide) h]
  simp only [fVal_zero, zero_add, fSign_zero, Bool.false_and]
  split
  · next h0 =>
    have hb : fBits x = 0 := by
      rw [← fMag_eq_zero, ← natAbs_fVal, h0]; rfl
    cases hs : fSign x
    · exact (f32_ext (by rw [hs]; decide) (by rw [hb]; decide)).symm
    · exact absurd (f32_ext (by rw [hs]; decide) (by rw [hb]; decide)) hz
  · next h0 =>
    rw [natAbs_fVal]
    have hs : decide (fVal x < 0) = fSign x := by
      cases hs : fSign x
      · rw [fVal_pos hs]; exact decide_eq_false (by omega)
      · rw [fVal_neg hs] at h0 ⊢; exact decide_eq_true (by omega)
    rw [hs]
    exact roundF_self (isFinite_not_nan h)

/-- Dividing by `1.0` changes nothing. -/
theorem fDiv_one {x : F32} (h : isFinite x = true) : fDiv x fOne = x := by
  rw [fDiv_finite h (by decide) (by decide), fMag_one]
  have : roundF (fSign x != fSign fOne) (fMag x * fUnit) fUnit = roundF (fSign x) (fMag x) 1 := by
    apply f32_ext
    · simp
    · rw [fBits_roundF, fBits_roundF, roundMag_exact (num := fMag x * fUnit) (b := fBits x) fUnit_pos rfl,
        roundMag_exact (b := fBits x) (by norm_num) (by simp [fMag])]
  rw [this, roundF_self (isFinite_not_nan h)]

/-- Multiplying by `1.0` changes nothing. -/
theorem fMul_one {x : F32} (h : isFinite x = true) : fMul x fOne = x := by
  rw [fMul_finite h (by decide), fMag_one]
  have : roundF (fSign x != fSign fOne) (fMag x * fUnit) fUnit = roundF (fSign x) (fMag x) 1 := by
    apply f32_ext
    · simp
    · rw [fBits_roundF, fBits_roundF, roundMag_exact (num := fMag x * fUnit) (b := fBits x) fUnit_pos rfl,
        roundMag_exact (b := fBits x) (by norm_num) (by simp [fMag])]
  rw [this, roundF_self (isFinite_not_nan h)]

/-! ### Clamp and remainder -/

/-- A clamp of a value that is not a NaN lies between its bounds. -/
theorem fClamp_between {x lo hi : F32} (hx : isNaN x = false) (h : fLe lo hi = true) :
    fLe lo (fClamp x lo hi) = true ∧ fLe (fClamp x lo hi) hi = true := by
  have hl := (fLe_iff.1 h).1
  have hh := (fLe_iff.1 h).2.1
  have hv := (fLe_iff.1 h).2.2
  unfold fClamp
  split
  · exact ⟨fLe_iff.2 ⟨hl, hl, le_rfl⟩, h⟩
  · next h1 =>
    split
    · exact ⟨h, fLe_iff.2 ⟨hh, hh, le_rfl⟩⟩
    · next h2 =>
      rw [fLe_iff] at h1 h2
      refine ⟨fLe_iff.2 ⟨hl, hx, ?_⟩, fLe_iff.2 ⟨hx, hh, ?_⟩⟩
      · by_contra hc; exact h1 ⟨hx, hl, by omega⟩
      · by_contra hc; exact h2 ⟨hh, hx, by omega⟩

/-- The value of an exact remainder: nothing is lost in its rounding. -/
theorem fMod_eq {x m : F32} (hx : isFinite x = true) (hm : isFinite m = true) (h0 : fLe 0#32 x = true)
    (h1 : fLt 0#32 m = true) : fMod x m = roundF false (fMag x % fMag m) 1 := by
  simp [fMod, hx, hm, h0, h1]

/-- A value with a clear sign bit and at most a finite one is finite. -/
theorem finite_of_le {x hi : F32} (h : fLe x hi = true) (hs : fSign x = false) (hf : isFinite hi = true) :
    isFinite x = true := by
  have hv := (fLe_iff.1 h).2.2
  rw [isFinite_iff] at *
  cases sh : fSign hi
  · have := (fVal_le_iff_of_pos hs sh).1 hv
    omega
  · rw [fVal_pos hs, fVal_neg sh] at hv
    have h0 : fBits x = 0 := fMag_eq_zero.1 (by omega)
    rw [h0]; decide

/-- The magnitude of a finite value is below that of an infinity. -/
theorem natAbs_fVal_lt {x : F32} (h : isFinite x = true) : (fVal x).natAbs < magOf infBits := by
  rw [natAbs_fVal]; exact magOf_lt_iff.2 (isFinite_iff.1 h)

/-- A multiple of `2^e` below `2^24 * 2^e` is a magnitude. -/
theorem exists_magOf {m e : Nat} (hm : m < 2 ^ 24) : ∃ b, magOf b = m * 2 ^ e := by
  induction e generalizing m with
  | zero => exact ⟨m, by have := magOf_split 0 m (by omega) (.inl rfl); simpa using this⟩
  | succ e ih =>
    rcases Nat.lt_or_ge m (2 ^ 23) with h | h
    · obtain ⟨b, hb⟩ := ih (m := 2 * m) (by omega)
      exact ⟨b, by rw [hb, pow_succ]; ring⟩
    · exact ⟨(e + 1) * 2 ^ 23 + m, magOf_split (e + 1) m (by omega) (.inr h)⟩

/-- The remainder of two magnitudes is a magnitude (R14: always representable). -/
theorem magOf_mod (a b : Nat) : ∃ c, magOf c = magOf a % magOf b := by
  obtain ⟨ea, ma, rfl, hma, ha⟩ := exists_split a
  obtain ⟨eb, mb, rfl, hmb, hb⟩ := exists_split b
  rw [magOf_split ea ma (by omega) ha, magOf_split eb mb (by omega) hb]
  rcases Nat.lt_or_ge (ma * 2 ^ ea) (mb * 2 ^ eb) with hlt | hge
  · exact ⟨ea * 2 ^ 23 + ma, by rw [magOf_split ea ma (by omega) ha, Nat.mod_eq_of_lt hlt]⟩
  · have he : eb ≤ ea := by
      by_contra hc
      have hb' : 2 ^ 23 ≤ mb := by omega
      have h1 : ma * 2 ^ ea < 2 ^ 24 * 2 ^ ea := Nat.mul_lt_mul_of_pos_right hma (Nat.two_pow_pos _)
      have h2 : 2 ^ 23 * 2 ^ eb ≤ mb * 2 ^ eb := Nat.mul_le_mul_right _ hb'
      have h3 : 2 ^ (ea + 1) ≤ 2 ^ eb := Nat.pow_le_pow_right (by norm_num) (by omega)
      rw [pow_succ] at h3
      omega
    obtain ⟨d, rfl⟩ := Nat.exists_eq_add_of_le he
    rw [show ma * 2 ^ (eb + d) = ma * 2 ^ d * 2 ^ eb by rw [pow_add]; ring, Nat.mul_mod_mul_right]
    rcases Nat.eq_zero_or_pos mb with h0 | h0
    · subst h0
      simp only [zero_mul, nonpos_iff_eq_zero, Nat.mod_zero] at *
      exact ⟨(eb + d) * 2 ^ 23 + ma, by rw [magOf_split (eb + d) ma (by omega) ha, pow_add]; ring⟩
    · exact exists_magOf (lt_of_lt_of_le (Nat.mod_lt _ h0) (by omega))

/-- The remainder is exact: nothing is lost in its rounding (R14). -/
theorem fMag_fMod {x m : F32} (hx : isFinite x = true) (hm : isFinite m = true) (h0 : fLe 0#32 x = true)
    (h1 : fLt 0#32 m = true) : fMag (fMod x m) = fMag x % fMag m := by
  rw [fMod_eq hx hm h0 h1, fMag_roundF]
  obtain ⟨c, hc⟩ := magOf_mod (fBits x) (fBits m)
  have hmm : fMag x % fMag m ≤ fMag x := Nat.mod_le _ _
  have hcx : c ≤ fBits x := magOf_le_iff.1 (by rw [hc]; exact hmm)
  have hxi := isFinite_iff.1 hx
  rw [roundMag_exact (b := c) (by norm_num) (by rw [mul_one, hc]; rfl), Nat.min_eq_left (by omega), hc]
  rfl

/-- The remainder lies in `[0, m)` (R14). -/
theorem fMod_range {x m : F32} (hx : isFinite x = true) (hm : isFinite m = true) (h0 : fLe 0#32 x = true)
    (h1 : fLt 0#32 m = true) : fSign (fMod x m) = false ∧ fLt (fMod x m) m = true := by
  have hs : fSign (fMod x m) = false := by rw [fMod_eq hx hm h0 h1]; simp
  have hv := (fLt_iff.1 h1).2.2
  rw [fVal_zero] at hv
  have sm := fSign_of_pos hv
  refine ⟨hs, fLt_iff.2 ⟨by rw [fMod_eq hx hm h0 h1]; simp, isFinite_not_nan hm, ?_⟩⟩
  rw [fVal_pos hs, fVal_pos sm, fMag_fMod hx hm h0 h1]
  rw [fVal_pos sm] at hv
  have := Nat.mod_lt (fMag x) (show 0 < fMag m by omega)
  omega

end Sys2Proof.Laws
end

