-- ==== Sys2Proof/Laws/Decode.lean ====
section
/-! SUPPORT. The fields of a packed command word, and that the opcode bytes of `30_encoding.md` R63 name distinct opcodes. -/

namespace Sys2Proof.Laws

/-- A packed word as a number. -/
theorem packWord_toNat (opc a8 : Byte) (u16 : BitVec 16) (x : F32) :
    (packWord opc a8 u16 x).toNat = opc.toNat + 2 ^ 8 * a8.toNat + 2 ^ 16 * u16.toNat + 2 ^ 32 * x.toNat := by
  have h1 := opc.isLt
  have h2 := a8.isLt
  have h3 := u16.isLt
  unfold packWord
  rw [BitVec.toNat_append, BitVec.toNat_append, BitVec.toNat_append,
    ← Nat.shiftLeft_add_eq_or_of_lt h1, ← Nat.shiftLeft_add_eq_or_of_lt h2, ← Nat.shiftLeft_add_eq_or_of_lt h3]
  simp only [Nat.shiftLeft_eq]
  ring

@[simp] theorem opcField_packWord (opc a8 : Byte) (u16 : BitVec 16) (x : F32) :
    opcField (packWord opc a8 u16 x) = opc := by
  apply BitVec.eq_of_toNat_eq
  have h1 := opc.isLt
  simp only [opcField, BitVec.extractLsb'_toNat, packWord_toNat, Nat.shiftRight_eq_div_pow]
  omega

@[simp] theorem a8Field_packWord (opc a8 : Byte) (u16 : BitVec 16) (x : F32) :
    a8Field (packWord opc a8 u16 x) = a8 := by
  apply BitVec.eq_of_toNat_eq
  have h1 := opc.isLt
  have h2 := a8.isLt
  simp only [a8Field, BitVec.extractLsb'_toNat, packWord_toNat, Nat.shiftRight_eq_div_pow]
  omega

@[simp] theorem u16Field_packWord (opc a8 : Byte) (u16 : BitVec 16) (x : F32) :
    u16Field (packWord opc a8 u16 x) = u16 := by
  apply BitVec.eq_of_toNat_eq
  have h1 := opc.isLt
  have h2 := a8.isLt
  have h3 := u16.isLt
  simp only [u16Field, BitVec.extractLsb'_toNat, packWord_toNat, Nat.shiftRight_eq_div_pow]
  omega

@[simp] theorem f32Field_packWord (opc a8 : Byte) (u16 : BitVec 16) (x : F32) :
    f32Field (packWord opc a8 u16 x) = x := by
  apply BitVec.eq_of_toNat_eq
  have h1 := opc.isLt
  have h2 := a8.isLt
  have h3 := u16.isLt
  have h4 := x.isLt
  simp only [f32Field, BitVec.extractLsb'_toNat, packWord_toNat, Nat.shiftRight_eq_div_pow]
  omega

/-- A word is its four fields packed. -/
theorem packWord_fields (w : Word64) : packWord (opcField w) (a8Field w) (u16Field w) (f32Field w) = w := by
  apply BitVec.eq_of_toNat_eq
  have h := w.isLt
  simp only [packWord_toNat, opcField, a8Field, u16Field, f32Field, BitVec.extractLsb'_toNat, Nat.shiftRight_eq_div_pow]
  omega

/-- Every opcode byte names its own opcode. -/
@[simp] theorem opcodeOfByte_opcodeByte (o : Opcode) : opcodeOfByte (opcodeByte o) = some o := by
  cases o <;> decide

/-- A byte that names an opcode is that opcode's byte. -/
theorem opcodeByte_of_opcodeOfByte {b : Byte} {o : Opcode} (h : opcodeOfByte b = some o) : opcodeByte o = b := by
  have := List.find?_some h
  simpa using this

/-- Masking a packed word masks each field. -/
theorem packWord_and (o1 a1 o2 a2 : Byte) (u1 u2 : BitVec 16) (x1 x2 : F32) :
    packWord o1 a1 u1 x1 &&& packWord o2 a2 u2 x2 = packWord (o1 &&& o2) (a1 &&& a2) (u1 &&& u2) (x1 &&& x2) := by
  apply BitVec.eq_of_getLsbD_eq
  intro i _
  simp only [packWord, BitVec.getLsbD_and, BitVec.getLsbD_append]
  repeat' split
  all_goals rfl

end Sys2Proof.Laws
end

