-- ==== Sys2Proof/Laws/State.lean ====
section
/-! SUPPORT. One lemma per field per update of the state and of a voice, each true by unfolding the update once. -/

namespace Sys2Proof.Laws

open Sys2Proof.Machine

/-! ### setShadow -/

@[simp] theorem setShadow_params (s : State) (b : Bank) : (setShadow s b).params = s.params := rfl
@[simp] theorem setShadow_cfg (s : State) (b : Bank) : (setShadow s b).cfg = s.cfg := rfl
@[simp] theorem setShadow_shadow (s : State) (b : Bank) : (setShadow s b).shadow = b := rfl
@[simp] theorem setShadow_active (s : State) (b : Bank) : (setShadow s b).active = s.active := rfl
@[simp] theorem setShadow_voices (s : State) (b : Bank) : (setShadow s b).voices = s.voices := rfl
@[simp] theorem setShadow_framesLeft (s : State) (b : Bank) : (setShadow s b).framesLeft = s.framesLeft := rfl
@[simp] theorem setShadow_silentLeft (s : State) (b : Bank) : (setShadow s b).silentLeft = s.silentLeft := rfl
@[simp] theorem setShadow_cPos (s : State) (b : Bank) : (setShadow s b).cPos = s.cPos := rfl
@[simp] theorem setShadow_pPos (s : State) (b : Bank) : (setShadow s b).pPos = s.pPos := rfl
@[simp] theorem setShadow_cPort (s : State) (b : Bank) : (setShadow s b).cPort = s.cPort := rfl
@[simp] theorem setShadow_hostScript (s : State) (b : Bank) : (setShadow s b).hostScript = s.hostScript := rfl
@[simp] theorem setShadow_controlScript (s : State) (b : Bank) : (setShadow s b).controlScript = s.controlScript := rfl
@[simp] theorem setShadow_turns (s : State) (b : Bank) : (setShadow s b).turns = s.turns := rfl
@[simp] theorem setShadow_output (s : State) (b : Bank) : (setShadow s b).output = s.output := rfl
@[simp] theorem setShadow_answers (s : State) (b : Bank) : (setShadow s b).answers = s.answers := rfl

/-! ### latch -/

@[simp] theorem latch_params (s : State) : (latch s).params = s.params := rfl
@[simp] theorem latch_cfg (s : State) : (latch s).cfg = s.cfg := rfl
@[simp] theorem latch_shadow (s : State) : (latch s).shadow = s.shadow := rfl
@[simp] theorem latch_active (s : State) : (latch s).active = s.shadow := rfl
@[simp] theorem latch_voices (s : State) : (latch s).voices = s.voices := rfl
@[simp] theorem latch_framesLeft (s : State) : (latch s).framesLeft = s.framesLeft := rfl
@[simp] theorem latch_silentLeft (s : State) : (latch s).silentLeft = s.silentLeft := rfl
@[simp] theorem latch_cPos (s : State) : (latch s).cPos = s.cPos := rfl
@[simp] theorem latch_pPos (s : State) : (latch s).pPos = s.pPos := rfl
@[simp] theorem latch_cPort (s : State) : (latch s).cPort = s.cPort := rfl
@[simp] theorem latch_hostScript (s : State) : (latch s).hostScript = s.hostScript := rfl
@[simp] theorem latch_controlScript (s : State) : (latch s).controlScript = s.controlScript := rfl
@[simp] theorem latch_turns (s : State) : (latch s).turns = s.turns := rfl
@[simp] theorem latch_output (s : State) : (latch s).output = s.output := rfl
@[simp] theorem latch_answers (s : State) : (latch s).answers = s.answers := rfl

/-! ### emit -/

@[simp] theorem emit_params (s : State) (f : Frame) : (emit s f).params = s.params := rfl
@[simp] theorem emit_cfg (s : State) (f : Frame) : (emit s f).cfg = s.cfg := rfl
@[simp] theorem emit_shadow (s : State) (f : Frame) : (emit s f).shadow = s.shadow := rfl
@[simp] theorem emit_active (s : State) (f : Frame) : (emit s f).active = s.active := rfl
@[simp] theorem emit_voices (s : State) (f : Frame) : (emit s f).voices = s.voices := rfl
@[simp] theorem emit_framesLeft (s : State) (f : Frame) : (emit s f).framesLeft = s.framesLeft := rfl
@[simp] theorem emit_silentLeft (s : State) (f : Frame) : (emit s f).silentLeft = s.silentLeft := rfl
@[simp] theorem emit_cPos (s : State) (f : Frame) : (emit s f).cPos = s.cPos := rfl
@[simp] theorem emit_pPos (s : State) (f : Frame) : (emit s f).pPos = s.pPos := rfl
@[simp] theorem emit_cPort (s : State) (f : Frame) : (emit s f).cPort = s.cPort := rfl
@[simp] theorem emit_hostScript (s : State) (f : Frame) : (emit s f).hostScript = s.hostScript := rfl
@[simp] theorem emit_controlScript (s : State) (f : Frame) : (emit s f).controlScript = s.controlScript := rfl
@[simp] theorem emit_turns (s : State) (f : Frame) : (emit s f).turns = s.turns := rfl
@[simp] theorem emit_output (s : State) (f : Frame) : (emit s f).output = s.output ++ [f] := rfl
@[simp] theorem emit_answers (s : State) (f : Frame) : (emit s f).answers = s.answers := rfl

/-! ### oweSilence -/

@[simp] theorem oweSilence_params (s : State) (n : Nat) : (oweSilence s n).params = s.params := rfl
@[simp] theorem oweSilence_cfg (s : State) (n : Nat) : (oweSilence s n).cfg = s.cfg := rfl
@[simp] theorem oweSilence_shadow (s : State) (n : Nat) : (oweSilence s n).shadow = s.shadow := rfl
@[simp] theorem oweSilence_active (s : State) (n : Nat) : (oweSilence s n).active = s.active := rfl
@[simp] theorem oweSilence_voices (s : State) (n : Nat) : (oweSilence s n).voices = s.voices := rfl
@[simp] theorem oweSilence_framesLeft (s : State) (n : Nat) : (oweSilence s n).framesLeft = s.framesLeft := rfl
@[simp] theorem oweSilence_silentLeft (s : State) (n : Nat) : (oweSilence s n).silentLeft = n := rfl
@[simp] theorem oweSilence_cPos (s : State) (n : Nat) : (oweSilence s n).cPos = s.cPos := rfl
@[simp] theorem oweSilence_pPos (s : State) (n : Nat) : (oweSilence s n).pPos = s.pPos := rfl
@[simp] theorem oweSilence_cPort (s : State) (n : Nat) : (oweSilence s n).cPort = s.cPort := rfl
@[simp] theorem oweSilence_hostScript (s : State) (n : Nat) : (oweSilence s n).hostScript = s.hostScript := rfl
@[simp] theorem oweSilence_controlScript (s : State) (n : Nat) : (oweSilence s n).controlScript = s.controlScript := rfl
@[simp] theorem oweSilence_turns (s : State) (n : Nat) : (oweSilence s n).turns = s.turns := rfl
@[simp] theorem oweSilence_output (s : State) (n : Nat) : (oweSilence s n).output = s.output := rfl
@[simp] theorem oweSilence_answers (s : State) (n : Nat) : (oweSilence s n).answers = s.answers := rfl

/-! ### silentStep -/

@[simp] theorem silentStep_params (s : State) : (silentStep s).params = s.params := rfl
@[simp] theorem silentStep_cfg (s : State) : (silentStep s).cfg = s.cfg := rfl
@[simp] theorem silentStep_shadow (s : State) : (silentStep s).shadow = s.shadow := rfl
@[simp] theorem silentStep_active (s : State) : (silentStep s).active = s.active := rfl
@[simp] theorem silentStep_voices (s : State) : (silentStep s).voices = s.voices := rfl
@[simp] theorem silentStep_framesLeft (s : State) : (silentStep s).framesLeft = s.framesLeft := rfl
@[simp] theorem silentStep_silentLeft (s : State) : (silentStep s).silentLeft = s.silentLeft - 1 := rfl
@[simp] theorem silentStep_cPos (s : State) : (silentStep s).cPos = s.cPos := rfl
@[simp] theorem silentStep_pPos (s : State) : (silentStep s).pPos = s.pPos := rfl
@[simp] theorem silentStep_cPort (s : State) : (silentStep s).cPort = s.cPort := rfl
@[simp] theorem silentStep_hostScript (s : State) : (silentStep s).hostScript = s.hostScript := rfl
@[simp] theorem silentStep_controlScript (s : State) : (silentStep s).controlScript = s.controlScript := rfl
@[simp] theorem silentStep_turns (s : State) : (silentStep s).turns = s.turns := rfl
@[simp] theorem silentStep_output (s : State) : (silentStep s).output = s.output ++ [monoFrame s 0#32] := rfl
@[simp] theorem silentStep_answers (s : State) : (silentStep s).answers = s.answers := rfl

/-! ### frameStep -/

@[simp] theorem frameStep_params (s : State) : (frameStep s).params = s.params := rfl
@[simp] theorem frameStep_cfg (s : State) : (frameStep s).cfg = s.cfg := rfl
@[simp] theorem frameStep_shadow (s : State) : (frameStep s).shadow = s.shadow := rfl
@[simp] theorem frameStep_active (s : State) : (frameStep s).active = s.active := rfl
@[simp] theorem frameStep_voices (s : State) : (frameStep s).voices = (frameMix s).1 := rfl
@[simp] theorem frameStep_framesLeft (s : State) : (frameStep s).framesLeft = s.framesLeft - 1 := rfl
@[simp] theorem frameStep_silentLeft (s : State) : (frameStep s).silentLeft = s.silentLeft := rfl
@[simp] theorem frameStep_cPos (s : State) : (frameStep s).cPos = s.cPos := rfl
@[simp] theorem frameStep_pPos (s : State) : (frameStep s).pPos = s.pPos := rfl
@[simp] theorem frameStep_cPort (s : State) : (frameStep s).cPort = s.cPort := rfl
@[simp] theorem frameStep_hostScript (s : State) : (frameStep s).hostScript = s.hostScript := rfl
@[simp] theorem frameStep_controlScript (s : State) : (frameStep s).controlScript = s.controlScript := rfl
@[simp] theorem frameStep_turns (s : State) : (frameStep s).turns = s.turns := rfl
@[simp] theorem frameStep_output (s : State) : (frameStep s).output = s.output ++ [monoFrame s (frameSample s)] := rfl
@[simp] theorem frameStep_answers (s : State) : (frameStep s).answers = s.answers := rfl

/-! ### answerRead -/

@[simp] theorem answerRead_params (s : State) (a : Agent) (w : Word32) : (answerRead s a w).params = s.params := rfl
@[simp] theorem answerRead_cfg (s : State) (a : Agent) (w : Word32) : (answerRead s a w).cfg = s.cfg := rfl
@[simp] theorem answerRead_shadow (s : State) (a : Agent) (w : Word32) : (answerRead s a w).shadow = s.shadow := rfl
@[simp] theorem answerRead_active (s : State) (a : Agent) (w : Word32) : (answerRead s a w).active = s.active := rfl
@[simp] theorem answerRead_voices (s : State) (a : Agent) (w : Word32) : (answerRead s a w).voices = s.voices := rfl
@[simp] theorem answerRead_framesLeft (s : State) (a : Agent) (w : Word32) : (answerRead s a w).framesLeft = s.framesLeft := rfl
@[simp] theorem answerRead_silentLeft (s : State) (a : Agent) (w : Word32) : (answerRead s a w).silentLeft = s.silentLeft := rfl
@[simp] theorem answerRead_cPos (s : State) (a : Agent) (w : Word32) : (answerRead s a w).cPos = s.cPos := rfl
@[simp] theorem answerRead_pPos (s : State) (a : Agent) (w : Word32) : (answerRead s a w).pPos = s.pPos := rfl
@[simp] theorem answerRead_cPort (s : State) (a : Agent) (w : Word32) : (answerRead s a w).cPort = s.cPort := rfl
@[simp] theorem answerRead_hostScript (s : State) (a : Agent) (w : Word32) : (answerRead s a w).hostScript = s.hostScript := rfl
@[simp] theorem answerRead_controlScript (s : State) (a : Agent) (w : Word32) : (answerRead s a w).controlScript = s.controlScript := rfl
@[simp] theorem answerRead_turns (s : State) (a : Agent) (w : Word32) : (answerRead s a w).turns = s.turns := rfl
@[simp] theorem answerRead_output (s : State) (a : Agent) (w : Word32) : (answerRead s a w).output = s.output := rfl
@[simp] theorem answerRead_answers (s : State) (a : Agent) (w : Word32) : (answerRead s a w).answers = s.answers ++ [{ reader := a, addr := w, word := memRead s w }] := rfl

/-! ### takeTurn -/

@[simp] theorem takeTurn_params (s : State) : (takeTurn s).params = s.params := rfl
@[simp] theorem takeTurn_cfg (s : State) : (takeTurn s).cfg = s.cfg := rfl
@[simp] theorem takeTurn_shadow (s : State) : (takeTurn s).shadow = s.shadow := rfl
@[simp] theorem takeTurn_active (s : State) : (takeTurn s).active = s.active := rfl
@[simp] theorem takeTurn_voices (s : State) : (takeTurn s).voices = s.voices := rfl
@[simp] theorem takeTurn_framesLeft (s : State) : (takeTurn s).framesLeft = s.framesLeft := rfl
@[simp] theorem takeTurn_silentLeft (s : State) : (takeTurn s).silentLeft = s.silentLeft := rfl
@[simp] theorem takeTurn_cPos (s : State) : (takeTurn s).cPos = s.cPos := rfl
@[simp] theorem takeTurn_pPos (s : State) : (takeTurn s).pPos = s.pPos := rfl
@[simp] theorem takeTurn_cPort (s : State) : (takeTurn s).cPort = s.cPort := rfl
@[simp] theorem takeTurn_hostScript (s : State) : (takeTurn s).hostScript = s.hostScript := rfl
@[simp] theorem takeTurn_controlScript (s : State) : (takeTurn s).controlScript = s.controlScript := rfl
@[simp] theorem takeTurn_turns (s : State) : (takeTurn s).turns = s.turns.tail := rfl
@[simp] theorem takeTurn_output (s : State) : (takeTurn s).output = s.output := rfl
@[simp] theorem takeTurn_answers (s : State) : (takeTurn s).answers = s.answers := rfl

/-! ### deactivate -/

@[simp] theorem deactivate_active (v : Voice) : (deactivate v).active = false := rfl
@[simp] theorem deactivate_note (v : Voice) : (deactivate v).note = v.note := rfl
@[simp] theorem deactivate_velocity (v : Voice) : (deactivate v).velocity = v.velocity := rfl
@[simp] theorem deactivate_phase (v : Voice) : (deactivate v).phase = v.phase := rfl
@[simp] theorem deactivate_stage (v : Voice) : (deactivate v).stage = .idle := rfl
@[simp] theorem deactivate_level (v : Voice) : (deactivate v).level = 0#32 := rfl
@[simp] theorem deactivate_relStart (v : Voice) : (deactivate v).relStart = 0#32 := rfl
@[simp] theorem deactivate_lfoPhase (v : Voice) : (deactivate v).lfoPhase = v.lfoPhase := rfl
@[simp] theorem deactivate_cutoffEff (v : Voice) : (deactivate v).cutoffEff = v.cutoffEff := rfl
@[simp] theorem deactivate_b0 (v : Voice) : (deactivate v).b0 = v.b0 := rfl
@[simp] theorem deactivate_b1 (v : Voice) : (deactivate v).b1 = v.b1 := rfl
@[simp] theorem deactivate_b2 (v : Voice) : (deactivate v).b2 = v.b2 := rfl
@[simp] theorem deactivate_a1 (v : Voice) : (deactivate v).a1 = v.a1 := rfl
@[simp] theorem deactivate_a2 (v : Voice) : (deactivate v).a2 = v.a2 := rfl
@[simp] theorem deactivate_x1 (v : Voice) : (deactivate v).x1 = v.x1 := rfl
@[simp] theorem deactivate_x2 (v : Voice) : (deactivate v).x2 = v.x2 := rfl
@[simp] theorem deactivate_y1 (v : Voice) : (deactivate v).y1 = v.y1 := rfl
@[simp] theorem deactivate_y2 (v : Voice) : (deactivate v).y2 = v.y2 := rfl

/-! ### clearHistory -/

@[simp] theorem clearHistory_active (v : Voice) : (clearHistory v).active = v.active := rfl
@[simp] theorem clearHistory_note (v : Voice) : (clearHistory v).note = v.note := rfl
@[simp] theorem clearHistory_velocity (v : Voice) : (clearHistory v).velocity = v.velocity := rfl
@[simp] theorem clearHistory_phase (v : Voice) : (clearHistory v).phase = v.phase := rfl
@[simp] theorem clearHistory_stage (v : Voice) : (clearHistory v).stage = v.stage := rfl
@[simp] theorem clearHistory_level (v : Voice) : (clearHistory v).level = v.level := rfl
@[simp] theorem clearHistory_relStart (v : Voice) : (clearHistory v).relStart = v.relStart := rfl
@[simp] theorem clearHistory_lfoPhase (v : Voice) : (clearHistory v).lfoPhase = v.lfoPhase := rfl
@[simp] theorem clearHistory_cutoffEff (v : Voice) : (clearHistory v).cutoffEff = v.cutoffEff := rfl
@[simp] theorem clearHistory_b0 (v : Voice) : (clearHistory v).b0 = v.b0 := rfl
@[simp] theorem clearHistory_b1 (v : Voice) : (clearHistory v).b1 = v.b1 := rfl
@[simp] theorem clearHistory_b2 (v : Voice) : (clearHistory v).b2 = v.b2 := rfl
@[simp] theorem clearHistory_a1 (v : Voice) : (clearHistory v).a1 = v.a1 := rfl
@[simp] theorem clearHistory_a2 (v : Voice) : (clearHistory v).a2 = v.a2 := rfl
@[simp] theorem clearHistory_x1 (v : Voice) : (clearHistory v).x1 = 0#32 := rfl
@[simp] theorem clearHistory_x2 (v : Voice) : (clearHistory v).x2 = 0#32 := rfl
@[simp] theorem clearHistory_y1 (v : Voice) : (clearHistory v).y1 = 0#32 := rfl
@[simp] theorem clearHistory_y2 (v : Voice) : (clearHistory v).y2 = 0#32 := rfl

/-! ### advancePhase -/

@[simp] theorem advancePhase_active (p : Params) (fs : F32) (v : Voice) : (advancePhase p fs v).active = v.active := rfl
@[simp] theorem advancePhase_note (p : Params) (fs : F32) (v : Voice) : (advancePhase p fs v).note = v.note := rfl
@[simp] theorem advancePhase_velocity (p : Params) (fs : F32) (v : Voice) : (advancePhase p fs v).velocity = v.velocity := rfl
@[simp] theorem advancePhase_phase (p : Params) (fs : F32) (v : Voice) : (advancePhase p fs v).phase = nextPhase p.tableLen fs v.note v.phase := rfl
@[simp] theorem advancePhase_stage (p : Params) (fs : F32) (v : Voice) : (advancePhase p fs v).stage = v.stage := rfl
@[simp] theorem advancePhase_level (p : Params) (fs : F32) (v : Voice) : (advancePhase p fs v).level = v.level := rfl
@[simp] theorem advancePhase_relStart (p : Params) (fs : F32) (v : Voice) : (advancePhase p fs v).relStart = v.relStart := rfl
@[simp] theorem advancePhase_lfoPhase (p : Params) (fs : F32) (v : Voice) : (advancePhase p fs v).lfoPhase = v.lfoPhase := rfl
@[simp] theorem advancePhase_cutoffEff (p : Params) (fs : F32) (v : Voice) : (advancePhase p fs v).cutoffEff = v.cutoffEff := rfl
@[simp] theorem advancePhase_b0 (p : Params) (fs : F32) (v : Voice) : (advancePhase p fs v).b0 = v.b0 := rfl
@[simp] theorem advancePhase_b1 (p : Params) (fs : F32) (v : Voice) : (advancePhase p fs v).b1 = v.b1 := rfl
@[simp] theorem advancePhase_b2 (p : Params) (fs : F32) (v : Voice) : (advancePhase p fs v).b2 = v.b2 := rfl
@[simp] theorem advancePhase_a1 (p : Params) (fs : F32) (v : Voice) : (advancePhase p fs v).a1 = v.a1 := rfl
@[simp] theorem advancePhase_a2 (p : Params) (fs : F32) (v : Voice) : (advancePhase p fs v).a2 = v.a2 := rfl
@[simp] theorem advancePhase_x1 (p : Params) (fs : F32) (v : Voice) : (advancePhase p fs v).x1 = v.x1 := rfl
@[simp] theorem advancePhase_x2 (p : Params) (fs : F32) (v : Voice) : (advancePhase p fs v).x2 = v.x2 := rfl
@[simp] theorem advancePhase_y1 (p : Params) (fs : F32) (v : Voice) : (advancePhase p fs v).y1 = v.y1 := rfl
@[simp] theorem advancePhase_y2 (p : Params) (fs : F32) (v : Voice) : (advancePhase p fs v).y2 = v.y2 := rfl

/-! ### startVoice, given whether the voice was active -/

@[simp] theorem startVoice_active (n : Nat) (x : F32) (v : Voice) : (startVoice n x v).active = true := rfl
@[simp] theorem startVoice_note (n : Nat) (x : F32) (v : Voice) : (startVoice n x v).note = n := rfl
@[simp] theorem startVoice_velocity (n : Nat) (x : F32) (v : Voice) : (startVoice n x v).velocity = x := rfl
@[simp] theorem startVoice_stage (n : Nat) (x : F32) (v : Voice) : (startVoice n x v).stage = .attack := rfl
@[simp] theorem startVoice_level (n : Nat) (x : F32) (v : Voice) : (startVoice n x v).level = 0#32 := rfl
@[simp] theorem startVoice_relStart (n : Nat) (x : F32) (v : Voice) : (startVoice n x v).relStart = 0#32 := rfl
@[simp] theorem startVoice_phase (n : Nat) (x : F32) (v : Voice) : (startVoice n x v).phase = v.phase := by
  unfold startVoice; dsimp only; split <;> rfl
@[simp] theorem startVoice_lfoPhase (n : Nat) (x : F32) (v : Voice) : (startVoice n x v).lfoPhase = v.lfoPhase := by
  unfold startVoice; dsimp only; split <;> rfl
@[simp] theorem startVoice_cutoffEff (n : Nat) (x : F32) (v : Voice) : (startVoice n x v).cutoffEff = v.cutoffEff := by
  unfold startVoice; dsimp only; split <;> rfl
@[simp] theorem startVoice_b0 (n : Nat) (x : F32) (v : Voice) : (startVoice n x v).b0 = v.b0 := by
  unfold startVoice; dsimp only; split <;> rfl
@[simp] theorem startVoice_b1 (n : Nat) (x : F32) (v : Voice) : (startVoice n x v).b1 = v.b1 := by
  unfold startVoice; dsimp only; split <;> rfl
@[simp] theorem startVoice_b2 (n : Nat) (x : F32) (v : Voice) : (startVoice n x v).b2 = v.b2 := by
  unfold startVoice; dsimp only; split <;> rfl
@[simp] theorem startVoice_a1 (n : Nat) (x : F32) (v : Voice) : (startVoice n x v).a1 = v.a1 := by
  unfold startVoice; dsimp only; split <;> rfl
@[simp] theorem startVoice_a2 (n : Nat) (x : F32) (v : Voice) : (startVoice n x v).a2 = v.a2 := by
  unfold startVoice; dsimp only; split <;> rfl
theorem startVoice_x1 (n : Nat) (x : F32) (v : Voice) :
    (startVoice n x v).x1 = if v.active then v.x1 else 0#32 := by
  unfold startVoice; dsimp only; split <;> rfl
theorem startVoice_x2 (n : Nat) (x : F32) (v : Voice) :
    (startVoice n x v).x2 = if v.active then v.x2 else 0#32 := by
  unfold startVoice; dsimp only; split <;> rfl
theorem startVoice_y1 (n : Nat) (x : F32) (v : Voice) :
    (startVoice n x v).y1 = if v.active then v.y1 else 0#32 := by
  unfold startVoice; dsimp only; split <;> rfl
theorem startVoice_y2 (n : Nat) (x : F32) (v : Voice) :
    (startVoice n x v).y2 = if v.active then v.y2 else 0#32 := by
  unfold startVoice; dsimp only; split <;> rfl

/-! ### Render step (a): what the LFO, cutoff and coefficient steps leave alone -/

@[simp] theorem filterUpdate_active (p : Params) (b : Bank) (fs : F32) (v : Voice) :
    (filterUpdate p b fs v).active = v.active := by
  simp only [filterUpdate, coeffStep, cutoffStep, lfoAdvance]
@[simp] theorem filterUpdate_note (p : Params) (b : Bank) (fs : F32) (v : Voice) :
    (filterUpdate p b fs v).note = v.note := by
  simp only [filterUpdate, coeffStep, cutoffStep, lfoAdvance]
@[simp] theorem filterUpdate_velocity (p : Params) (b : Bank) (fs : F32) (v : Voice) :
    (filterUpdate p b fs v).velocity = v.velocity := by
  simp only [filterUpdate, coeffStep, cutoffStep, lfoAdvance]
@[simp] theorem filterUpdate_phase (p : Params) (b : Bank) (fs : F32) (v : Voice) :
    (filterUpdate p b fs v).phase = v.phase := by
  simp only [filterUpdate, coeffStep, cutoffStep, lfoAdvance]
@[simp] theorem filterUpdate_stage (p : Params) (b : Bank) (fs : F32) (v : Voice) :
    (filterUpdate p b fs v).stage = v.stage := by
  simp only [filterUpdate, coeffStep, cutoffStep, lfoAdvance]
@[simp] theorem filterUpdate_level (p : Params) (b : Bank) (fs : F32) (v : Voice) :
    (filterUpdate p b fs v).level = v.level := by
  simp only [filterUpdate, coeffStep, cutoffStep, lfoAdvance]
@[simp] theorem filterUpdate_relStart (p : Params) (b : Bank) (fs : F32) (v : Voice) :
    (filterUpdate p b fs v).relStart = v.relStart := by
  simp only [filterUpdate, coeffStep, cutoffStep, lfoAdvance]
@[simp] theorem filterUpdate_x1 (p : Params) (b : Bank) (fs : F32) (v : Voice) :
    (filterUpdate p b fs v).x1 = v.x1 := by
  simp only [filterUpdate, coeffStep, cutoffStep, lfoAdvance]
@[simp] theorem filterUpdate_x2 (p : Params) (b : Bank) (fs : F32) (v : Voice) :
    (filterUpdate p b fs v).x2 = v.x2 := by
  simp only [filterUpdate, coeffStep, cutoffStep, lfoAdvance]
@[simp] theorem filterUpdate_y1 (p : Params) (b : Bank) (fs : F32) (v : Voice) :
    (filterUpdate p b fs v).y1 = v.y1 := by
  simp only [filterUpdate, coeffStep, cutoffStep, lfoAdvance]
@[simp] theorem filterUpdate_y2 (p : Params) (b : Bank) (fs : F32) (v : Voice) :
    (filterUpdate p b fs v).y2 = v.y2 := by
  simp only [filterUpdate, coeffStep, cutoffStep, lfoAdvance]

/-! ### Render step (d): what the filter leaves alone -/

@[simp] theorem filterStep_active (v : Voice) (x : F32) : (filterStep v x).active = v.active := by
  unfold filterStep; split <;> rfl
@[simp] theorem filterStep_note (v : Voice) (x : F32) : (filterStep v x).note = v.note := by
  unfold filterStep; split <;> rfl
@[simp] theorem filterStep_velocity (v : Voice) (x : F32) : (filterStep v x).velocity = v.velocity := by
  unfold filterStep; split <;> rfl
@[simp] theorem filterStep_phase (v : Voice) (x : F32) : (filterStep v x).phase = v.phase := by
  unfold filterStep; split <;> rfl
@[simp] theorem filterStep_stage (v : Voice) (x : F32) : (filterStep v x).stage = v.stage := by
  unfold filterStep; split <;> rfl
@[simp] theorem filterStep_level (v : Voice) (x : F32) : (filterStep v x).level = v.level := by
  unfold filterStep; split <;> rfl
@[simp] theorem filterStep_relStart (v : Voice) (x : F32) : (filterStep v x).relStart = v.relStart := by
  unfold filterStep; split <;> rfl
@[simp] theorem filterStep_lfoPhase (v : Voice) (x : F32) : (filterStep v x).lfoPhase = v.lfoPhase := by
  unfold filterStep; split <;> rfl
@[simp] theorem filterStep_cutoffEff (v : Voice) (x : F32) : (filterStep v x).cutoffEff = v.cutoffEff := by
  unfold filterStep; split <;> rfl
@[simp] theorem filterStep_b0 (v : Voice) (x : F32) : (filterStep v x).b0 = v.b0 := by
  unfold filterStep; split <;> rfl
@[simp] theorem filterStep_b1 (v : Voice) (x : F32) : (filterStep v x).b1 = v.b1 := by
  unfold filterStep; split <;> rfl
@[simp] theorem filterStep_b2 (v : Voice) (x : F32) : (filterStep v x).b2 = v.b2 := by
  unfold filterStep; split <;> rfl
@[simp] theorem filterStep_a1 (v : Voice) (x : F32) : (filterStep v x).a1 = v.a1 := by
  unfold filterStep; split <;> rfl
@[simp] theorem filterStep_a2 (v : Voice) (x : F32) : (filterStep v x).a2 = v.a2 := by
  unfold filterStep; split <;> rfl

/-! ### Render step (f): what the envelope leaves alone -/

theorem attackStep_keeps (b : Bank) (fs : F32) (v : Voice) :
    attackStep b fs v = { v with level := (attackStep b fs v).level, stage := (attackStep b fs v).stage } := by
  unfold attackStep; dsimp only; repeat' split
  all_goals rfl

theorem decayStep_keeps (b : Bank) (fs : F32) (v : Voice) :
    decayStep b fs v = { v with level := (decayStep b fs v).level, stage := (decayStep b fs v).stage } := by
  unfold decayStep; dsimp only; repeat' split
  all_goals rfl

theorem releaseStep_keeps (b : Bank) (fs : F32) (v : Voice) :
    releaseStep b fs v = { v with level := (releaseStep b fs v).level, stage := (releaseStep b fs v).stage } := by
  unfold releaseStep; dsimp only; repeat' split
  all_goals rfl

/-- `EnvAdvance` writes `LEVEL` and `STAGE` only (R105). -/
theorem envAdvance_keeps (b : Bank) (fs : F32) (v : Voice) :
    envAdvance b fs v = { v with level := (envAdvance b fs v).level, stage := (envAdvance b fs v).stage } := by
  unfold envAdvance
  split
  · exact attackStep_keeps b fs v
  · exact decayStep_keeps b fs v
  · rfl
  · exact releaseStep_keeps b fs v
  · rfl

@[simp] theorem envAdvance_active (b : Bank) (fs : F32) (v : Voice) : (envAdvance b fs v).active = v.active := by
  rw [envAdvance_keeps]
@[simp] theorem envAdvance_note (b : Bank) (fs : F32) (v : Voice) : (envAdvance b fs v).note = v.note := by
  rw [envAdvance_keeps]
@[simp] theorem envAdvance_velocity (b : Bank) (fs : F32) (v : Voice) : (envAdvance b fs v).velocity = v.velocity := by
  rw [envAdvance_keeps]
@[simp] theorem envAdvance_phase (b : Bank) (fs : F32) (v : Voice) : (envAdvance b fs v).phase = v.phase := by
  rw [envAdvance_keeps]
@[simp] theorem envAdvance_relStart (b : Bank) (fs : F32) (v : Voice) : (envAdvance b fs v).relStart = v.relStart := by
  rw [envAdvance_keeps]
@[simp] theorem envAdvance_lfoPhase (b : Bank) (fs : F32) (v : Voice) : (envAdvance b fs v).lfoPhase = v.lfoPhase := by
  rw [envAdvance_keeps]
@[simp] theorem envAdvance_cutoffEff (b : Bank) (fs : F32) (v : Voice) : (envAdvance b fs v).cutoffEff = v.cutoffEff := by
  rw [envAdvance_keeps]
@[simp] theorem envAdvance_b0 (b : Bank) (fs : F32) (v : Voice) : (envAdvance b fs v).b0 = v.b0 := by
  rw [envAdvance_keeps]
@[simp] theorem envAdvance_b1 (b : Bank) (fs : F32) (v : Voice) : (envAdvance b fs v).b1 = v.b1 := by
  rw [envAdvance_keeps]
@[simp] theorem envAdvance_b2 (b : Bank) (fs : F32) (v : Voice) : (envAdvance b fs v).b2 = v.b2 := by
  rw [envAdvance_keeps]
@[simp] theorem envAdvance_a1 (b : Bank) (fs : F32) (v : Voice) : (envAdvance b fs v).a1 = v.a1 := by
  rw [envAdvance_keeps]
@[simp] theorem envAdvance_a2 (b : Bank) (fs : F32) (v : Voice) : (envAdvance b fs v).a2 = v.a2 := by
  rw [envAdvance_keeps]
@[simp] theorem envAdvance_x1 (b : Bank) (fs : F32) (v : Voice) : (envAdvance b fs v).x1 = v.x1 := by
  rw [envAdvance_keeps]
@[simp] theorem envAdvance_x2 (b : Bank) (fs : F32) (v : Voice) : (envAdvance b fs v).x2 = v.x2 := by
  rw [envAdvance_keeps]
@[simp] theorem envAdvance_y1 (b : Bank) (fs : F32) (v : Voice) : (envAdvance b fs v).y1 = v.y1 := by
  rw [envAdvance_keeps]
@[simp] theorem envAdvance_y2 (b : Bank) (fs : F32) (v : Voice) : (envAdvance b fs v).y2 = v.y2 := by
  rw [envAdvance_keeps]

end Sys2Proof.Laws
end

