-- ==== Sys2Proof/Laws/Ops.lean ====
section
/-! SUPPORT. What each shared operation can do, said once: guarded commands, note dispatch, the mixer, a word taken from a port,
and the step of each agent. -/

namespace Sys2Proof.Laws

open Sys2Proof.Machine

/-- A guarded command answers the state it leaves, or, rejected, the state it found. -/
theorem guarded_eq (check : Option Rejection) (s s' : State) :
    (check = none ∧ guarded check s s' = .next s') ∨ (∃ r, check = some r ∧ guarded check s s' = .next s) := by
  cases check with
  | none => exact .inl ⟨rfl, rfl⟩
  | some r => exact .inr ⟨r, rfl, rfl⟩

theorem guarded_next {check : Option Rejection} {s s' t : State} (h : guarded check s s' = .next t) :
    (check = none ∧ t = s') ∨ (check ≠ none ∧ t = s) := by
  cases check with
  | none => exact .inl ⟨rfl, by injection h with h; exact h.symm⟩
  | some r => exact .inr ⟨by simp, by injection h with h; exact h.symm⟩

/-- The selector and the check of SET_WAVEFORM agree. -/
theorem waveformOf_none_iff (sel : Nat) : waveformOf sel = none ↔ 3 < sel := by
  match sel with
  | 0 | 1 | 2 | 3 => simp [waveformOf]
  | n + 4 => simp [waveformOf]

/-! ### Note dispatch -/

/-- NOTE_ON's scan starts the first inactive slot, where there is one. -/
theorem startFirstIdle_eq_set {note : Nat} {vel : F32} :
    ∀ {vs : List Voice} {k : Nat} {v : Voice}, vs[k]? = some v → v.active = false →
      (∀ j < k, ∀ u, vs[j]? = some u → u.active = true) →
      startFirstIdle note vel vs = vs.set k (startVoice note vel v)
  | [], _, _, h, _, _ => by simp at h
  | w :: ws, 0, v, h, hv, _ => by
    simp only [List.getElem?_cons_zero, Option.some.injEq] at h
    subst h
    simp [startFirstIdle, hv]
  | w :: ws, k + 1, v, h, hv, hj => by
    have hw : w.active = true := hj 0 (by omega) w (by simp)
    have ih := startFirstIdle_eq_set (note := note) (vel := vel) (vs := ws) (k := k) (by simpa using h) hv
      (fun j hjk u hu => hj (j + 1) (by omega) u (by simpa using hu))
    simp [startFirstIdle, hw, ih]

/-- A full pool is left as it is. -/
theorem startFirstIdle_full {note : Nat} {vel : F32} :
    ∀ {vs : List Voice}, (∀ u ∈ vs, u.active = true) → startFirstIdle note vel vs = vs
  | [], _ => rfl
  | w :: ws, h => by
    have hw := h w (by simp)
    have ih := startFirstIdle_full (note := note) (vel := vel) (vs := ws) fun u hu => h u (by simp [hu])
    simp [startFirstIdle, hw, ih]

@[simp] theorem startFirstIdle_length (note : Nat) (vel : F32) :
    ∀ vs : List Voice, (startFirstIdle note vel vs).length = vs.length
  | [] => rfl
  | v :: vs => by
    have ih := startFirstIdle_length note vel vs
    unfold startFirstIdle
    split <;> simp [ih]

/-- Every voice after NOTE_ON's scan was there before or is a start of one that was. -/
theorem mem_startFirstIdle {note : Nat} {vel : F32} {u : Voice} :
    ∀ {vs : List Voice}, u ∈ startFirstIdle note vel vs → u ∈ vs ∨ ∃ v ∈ vs, v.active = false ∧ u = startVoice note vel v
  | [], h => by simp [startFirstIdle] at h
  | w :: ws, h => by
    unfold startFirstIdle at h
    split at h
    · rcases List.mem_cons.1 h with h | h
      · exact .inl (by simp [h])
      · rcases mem_startFirstIdle h with h | ⟨v, hv, h⟩
        · exact .inl (by simp [h])
        · exact .inr ⟨v, by simp [hv], h⟩
    · next hw =>
      rcases List.mem_cons.1 h with h | h
      · exact .inr ⟨w, by simp, by simpa using hw, h⟩
      · exact .inl (by simp [h])

/-! ### The mixer -/

/-- Every voice is rendered on its own, whatever its place in the sum. -/
theorem mixVoices_fst (p : Params) (b : Bank) (fs : F32) :
    ∀ (vs : List Voice) (acc : F32), (mixVoices p b fs acc vs).1 = vs.map fun v => (renderSample p b fs v).1
  | [], _ => rfl
  | v :: vs, acc => by simp [mixVoices, mixVoices_fst p b fs vs]

/-- The samples are added in slot order. -/
theorem mixVoices_snd (p : Params) (b : Bank) (fs : F32) :
    ∀ (vs : List Voice) (acc : F32),
      (mixVoices p b fs acc vs).2 = (vs.map fun v => (renderSample p b fs v).2).foldl fAdd acc
  | [], _ => rfl
  | v :: vs, acc => by simp [mixVoices, mixVoices_snd p b fs vs]

/-- An inactive voice renders as itself and `+0.0`. -/
theorem renderSample_inactive (p : Params) (b : Bank) (fs : F32) {v : Voice} (h : v.active = false) :
    renderSample p b fs v = (v, 0#32) := by
  simp [renderSample, h]

/-- An active voice after its frame: the rendered voice, or that voice deactivated. -/
theorem renderSample_active (p : Params) (b : Bank) (fs : F32) {v : Voice} (h : v.active = true) :
    (renderSample p b fs v).1 = renderActive p b fs v ∨
      (renderSample p b fs v).1 = deactivate (renderActive p b fs v) := by
  simp only [renderSample, h, if_true]
  split
  · exact .inr rfl
  · exact .inl rfl

/-! ### Words and agents -/

/-- A word taken from a port runs the command it decodes to, or changes nothing. -/
theorem runWord_cases (port : Port) (w : Word64) (s : State) :
    (∃ i, decode port w = .ok i ∧ runWord port w s = exec i s) ∨
      (∃ r, decode port w = .error r ∧ runWord port w s = .next s) := by
  unfold runWord
  cases h : decode port w with
  | ok i => exact .inl ⟨i, rfl, rfl⟩
  | error r => exact .inr ⟨r, rfl, rfl⟩

/-- What one step can be: a sounding frame, a silent frame, a word taken from either port, a read answered, a word written to the C-port, or nothing. -/
theorem step_cases (s : State) :
    (nextAgent s = .renderer ∧ 0 < s.framesLeft ∧ step s = .next (frameStep (takeTurn s))) ∨
    (nextAgent s = .renderer ∧ s.framesLeft = 0 ∧ 0 < s.silentLeft ∧ step s = .next (silentStep (takeTurn s))) ∨
    (∃ w ws, nextAgent s = .renderer ∧ s.framesLeft = 0 ∧ s.silentLeft = 0 ∧ s.cPort = w :: ws ∧
      step s = runWord .c w { takeTurn s with cPort := ws, cPos := s.cPos + 1 }) ∨
    (∃ w ms, nextAgent s = .control ∧ s.controlScript = .write w :: ms ∧
      step s = runWord .p w { takeTurn s with controlScript := ms, pPos := s.pPos + 1 }) ∨
    (∃ a ms, nextAgent s = .control ∧ s.controlScript = .read a :: ms ∧
      step s = .next (answerRead { takeTurn s with controlScript := ms } .control a)) ∨
    (∃ w ms, nextAgent s = .host ∧ s.hostScript = .write w :: ms ∧
      step s = .next { takeTurn s with hostScript := ms, cPort := s.cPort ++ [w] }) ∨
    (∃ a ms, nextAgent s = .host ∧ s.hostScript = .read a :: ms ∧
      step s = .next (answerRead { takeTurn s with hostScript := ms } .host a)) ∨
    step s = .next (takeTurn s) := by
  cases ha : nextAgent s with
  | renderer =>
    by_cases hf : 0 < s.framesLeft
    · exact .inl ⟨rfl, hf, by simp [step, ha, agentStep, rendererStep, hf]⟩
    · by_cases hs : 0 < s.silentLeft
      · exact .inr (.inl ⟨rfl, by omega, hs, by simp [step, ha, agentStep, rendererStep, hf, hs]⟩)
      · cases hc : s.cPort with
        | nil => simp [step, ha, agentStep, rendererStep, hf, hs, hc]
        | cons w ws =>
          exact .inr (.inr (.inl
            ⟨w, ws, rfl, by omega, by omega, rfl, by simp [step, ha, agentStep, rendererStep, hf, hs, hc]⟩))
  | control =>
    cases hc : s.controlScript with
    | nil => simp [step, ha, agentStep, controlStep, hc]
    | cons m ms =>
      cases m with
      | write w => simp [step, ha, agentStep, controlStep, hc]
      | read a => simp [step, ha, agentStep, controlStep, hc]
  | host =>
    cases hc : s.hostScript with
    | nil => simp [step, ha, agentStep, hostStep, hc]
    | cons m ms =>
      cases m with
      | write w => simp [step, ha, agentStep, hostStep, hc]
      | read a => simp [step, ha, agentStep, hostStep, hc]

end Sys2Proof.Laws
end

