-- ==== Sys2Proof/Laws/PerInstr.lean ====
section
/-! SUPPORT. The per-command family: what the encoded word of each command carries (`30_encoding.md` R60, R63, R64). -/

namespace Sys2Proof.Laws.EncodeShape

/-- The encoded word has the command's opcode in its low byte and 0 in every reserved field. -/
def Statement (i : Instr) : Prop :=
  opcField (encode i) = opcodeByte (instrOpcode i) ∧ encode i &&& reservedMask (instrOpcode i) = 0

/-- A packed word is 0 under a mask where each field is. -/
theorem masked {o a mo ma : Byte} {u mu : BitVec 16} {x mx : F32} (h0 : o &&& mo = 0) (h1 : a &&& ma = 0)
    (h2 : u &&& mu = 0) (h3 : x &&& mx = 0) : packWord o a u x &&& packWord mo ma mu mx = 0 := by
  rw [packWord_and, h0, h1, h2, h3]
  rfl

theorem nop : Statement .nop := ⟨by decide, by decide⟩

theorem prepare (fs : F32) (maxBlock : Nat) : Statement (.prepare fs maxBlock) :=
  ⟨opcField_packWord _ _ _ _,
   (by decide : reservedMask .prepare = packWord 0 0xFF 0 0) ▸ masked (by decide) (by decide) (by simp) (by simp)⟩

theorem noteOn (note : Nat) (v : F32) : Statement (.noteOn note v) :=
  ⟨opcField_packWord _ _ _ _,
   (by decide : reservedMask .noteOn = packWord 0 0 0xFFFF 0) ▸ masked (by decide) (by simp) (by simp) (by simp)⟩

theorem noteOff (note : Nat) (v : F32) : Statement (.noteOff note v) :=
  ⟨opcField_packWord _ _ _ _,
   (by decide : reservedMask .noteOff = packWord 0 0 0xFFFF 0) ▸ masked (by decide) (by simp) (by simp) (by simp)⟩

theorem render (n : Nat) : Statement (.render n) :=
  ⟨opcField_packWord _ _ _ _,
   (by decide : reservedMask .render = packWord 0 0xFF 0 0xFFFFFFFF) ▸ masked (by decide) (by simp) (by simp) (by simp)⟩

theorem setAttack (x : F32) : Statement (.setAttack x) :=
  ⟨opcField_packWord _ _ _ _,
   (by decide : reservedMask .setAttack = packWord 0 0xFF 0xFFFF 0) ▸ masked (by decide) (by simp) (by simp) (by simp)⟩

theorem setDecay (x : F32) : Statement (.setDecay x) :=
  ⟨opcField_packWord _ _ _ _,
   (by decide : reservedMask .setDecay = packWord 0 0xFF 0xFFFF 0) ▸ masked (by decide) (by simp) (by simp) (by simp)⟩

theorem setSustain (x : F32) : Statement (.setSustain x) :=
  ⟨opcField_packWord _ _ _ _,
   (by decide : reservedMask .setSustain = packWord 0 0xFF 0xFFFF 0) ▸ masked (by decide) (by simp) (by simp) (by simp)⟩

theorem setRelease (x : F32) : Statement (.setRelease x) :=
  ⟨opcField_packWord _ _ _ _,
   (by decide : reservedMask .setRelease = packWord 0 0xFF 0xFFFF 0) ▸ masked (by decide) (by simp) (by simp) (by simp)⟩

theorem setCutoff (x : F32) : Statement (.setCutoff x) :=
  ⟨opcField_packWord _ _ _ _,
   (by decide : reservedMask .setCutoff = packWord 0 0xFF 0xFFFF 0) ▸ masked (by decide) (by simp) (by simp) (by simp)⟩

theorem setResonance (x : F32) : Statement (.setResonance x) :=
  ⟨opcField_packWord _ _ _ _,
   (by decide : reservedMask .setResonance = packWord 0 0xFF 0xFFFF 0) ▸ masked (by decide) (by simp) (by simp) (by simp)⟩

theorem setLfoRate (x : F32) : Statement (.setLfoRate x) :=
  ⟨opcField_packWord _ _ _ _,
   (by decide : reservedMask .setLfoRate = packWord 0 0xFF 0xFFFF 0) ▸ masked (by decide) (by simp) (by simp) (by simp)⟩

theorem setLfoDepth (x : F32) : Statement (.setLfoDepth x) :=
  ⟨opcField_packWord _ _ _ _,
   (by decide : reservedMask .setLfoDepth = packWord 0 0xFF 0xFFFF 0) ▸ masked (by decide) (by simp) (by simp) (by simp)⟩

theorem setUnison (n : Nat) : Statement (.setUnison n) :=
  ⟨opcField_packWord _ _ _ _,
   (by decide : reservedMask .setUnison = packWord 0 0xFF 0 0xFFFFFFFF) ▸ masked (by decide) (by simp) (by simp) (by simp)⟩

theorem setDetune (x : F32) : Statement (.setDetune x) :=
  ⟨opcField_packWord _ _ _ _,
   (by decide : reservedMask .setDetune = packWord 0 0xFF 0xFFFF 0) ▸ masked (by decide) (by simp) (by simp) (by simp)⟩

theorem setWaveform (sel : Nat) : Statement (.setWaveform sel) :=
  ⟨opcField_packWord _ _ _ _,
   (by decide : reservedMask .setWaveform = packWord 0 0 0xFFFF 0xFFFFFFFF) ▸ masked (by decide) (by simp) (by simp) (by simp)⟩

theorem setVolume (x : F32) : Statement (.setVolume x) :=
  ⟨opcField_packWord _ _ _ _,
   (by decide : reservedMask .setVolume = packWord 0 0xFF 0xFFFF 0) ▸ masked (by decide) (by simp) (by simp) (by simp)⟩

end Sys2Proof.Laws.EncodeShape
end

