-- ==== Sys2Proof/Machine/Assembler.lean ====
section
/-! DEFINITION. The assembler notation of `30_encoding.md` R69 to R71: integer and f32 literals, one line per command, and the
pseudo-instructions. Notation only; nothing the machine does depends on it. -/

namespace Sys2Proof.Machine

/-- The commands a pseudo-instruction stands for, in order (R71). -/
def expandPseudo : Pseudo → List Instr
  | .setAdsr a d s r => [.setAttack a, .setDecay d, .setSustain s, .setRelease r]
  | .setFilter c q => [.setCutoff c, .setResonance q]
  | .setLfo rate depth => [.setLfoRate rate, .setLfoDepth depth]
  | .setUnisonDetune n d => [.setUnison n, .setDetune d]
  | .silence n => [.render n]

/-- The value of a digit character in a base of at most 16. -/
def digitValue (base : Nat) (c : Char) : Option Nat :=
  let n := c.toNat
  let d := if 48 ≤ n ∧ n ≤ 57 then n - 48 else if 65 ≤ n ∧ n ≤ 70 then n - 55 else if 97 ≤ n ∧ n ≤ 102 then n - 87 else 16
  if d < base then some d else none

/-- Digits read on from the value `acc`. -/
def digitsFrom (base : Nat) : Nat → List Char → Option Nat
  | acc, [] => some acc
  | acc, c :: cs =>
    match digitValue base c with
    | some d => digitsFrom base (acc * base + d) cs
    | none => none

/-- A nonempty string of digits. -/
def readDigits (base : Nat) (cs : List Char) : Option Nat := if cs = [] then none else digitsFrom base 0 cs

/-- An integer literal: decimal, or hexadecimal after `0x` (R69). -/
def readInt (cs : List Char) : Option Nat :=
  match cs with
  | '0' :: 'x' :: hs => readDigits 16 hs
  | _ => readDigits 10 cs

/-- The text before the first `c` and, where there is one, the text after it. -/
def cutAt (c : Char) : List Char → List Char × Option (List Char)
  | [] => ([], none)
  | x :: xs =>
    if x = c then ([], some xs)
    else
      let r := cutAt c xs
      (x :: r.1, r.2)

/-- The decimal exponent of a literal as a power of ten above and below (`e5` is (5, 0), `e-4` is (0, 4)). -/
def readExponent (cs : List Char) : Option (Nat × Nat) :=
  match cs with
  | '-' :: ds => (readDigits 10 ds).map fun n => (0, n)
  | '+' :: ds => (readDigits 10 ds).map fun n => (n, 0)
  | _ => (readDigits 10 cs).map fun n => (n, 0)

/-- `CR` of an exact decimal value (R70): digits, a fraction, a power of ten. A value that rounds to zero is `+0.0` whatever its
sign, since the raw form is the only way to write `-0.0` (DEDUCED, assumption log 27); one past the largest f32 is an infinity
(PRESUMED, assumption log 28). -/
def decimalF32 (neg : Bool) (whole frac : List Char) (up down : Nat) : Option F32 :=
  (readDigits 10 (whole ++ frac)).map fun n =>
    let x := crRat neg (n * 10 ^ up) (10 ^ (frac.length + down))
    if fMag x = 0 then 0#32 else x

/-- An unsigned decimal literal such as `0.1` or `1e-4`, with its sign given. R70 gives the form only by these examples: a digit
before the point, a lower-case `e`, no leading `+`, and a fraction that may be empty (PRESUMED, assumption log 30). -/
def readDecimal (neg : Bool) (cs : List Char) : Option F32 :=
  let em := cutAt 'e' cs
  let wf := cutAt '.' em.1
  match (match em.2 with | none => some (0, 0) | some e => readExponent e) with
  | none => none
  | some x => if wf.1 = [] then none else decimalF32 neg wf.1 (wf.2.getD []) x.1 x.2

/-- An f32 literal (R70): `f32:0xHHHHHHHH` gives those bits, `inf` and `-inf` the infinities, else a decimal. -/
def readF32 (cs : List Char) : Option F32 :=
  match cs with
  | 'f' :: '3' :: '2' :: ':' :: '0' :: 'x' :: hs =>
    if hs.length = 8 then (readDigits 16 hs).map (BitVec.ofNat 32) else none
  | ['i', 'n', 'f'] => some (fInf false)
  | ['-', 'i', 'n', 'f'] => some (fInf true)
  | '-' :: ds => readDecimal true ds
  | _ => readDecimal false cs

/-- A selector operand: a waveform name or an integer (R69). -/
def readSel (cs : List Char) : Option Nat :=
  if cs = "SINE".toList then some 0
  else if cs = "SQUARE".toList then some 1
  else if cs = "TRIANGLE".toList then some 2
  else if cs = "SAWTOOTH".toList then some 3
  else readInt cs

/-- Leading blanks dropped. -/
def skipBlanks (cs : List Char) : List Char := cs.dropWhile fun c => c == ' '

/-- Blanks dropped at both ends. -/
def trimBlanks (cs : List Char) : List Char := (skipBlanks (skipBlanks cs).reverse).reverse

/-- The comma-separated operands of a line, trimmed. -/
def operandsFrom : List Char → List Char → List (List Char)
  | acc, [] => [trimBlanks acc.reverse]
  | acc, c :: cs => if c = ',' then trimBlanks acc.reverse :: operandsFrom [] cs else operandsFrom (c :: acc) cs

/-- The operands of a line; none where the line ends after its mnemonic. -/
def readOperands (cs : List Char) : List (List Char) := if trimBlanks cs = [] then [] else operandsFrom [] cs

/-- A command with one f32 operand. -/
def oneF32 (f : F32 → Instr) (ops : List (List Char)) : Option (List Instr) :=
  match ops with
  | [a] => (readF32 a).map fun x => [f x]
  | _ => none

/-- The commands of a mnemonic with its operands, in the order of R63's operand column (R69, R71). -/
def readCommand (mnemonic : List Char) (ops : List (List Char)) : Option (List Instr) :=
  if mnemonic = "NOP".toList then (if ops = [] then some [.nop] else none)
  else if mnemonic = "PREPARE".toList then
    match ops with
    | [a, b] => (readF32 a).bind fun x => (readInt b).map fun n => [.prepare x n]
    | _ => none
  else if mnemonic = "NOTE_ON".toList then
    match ops with
    | [a, b] => (readInt a).bind fun n => (readF32 b).map fun x => [.noteOn n x]
    | _ => none
  else if mnemonic = "NOTE_OFF".toList then
    match ops with
    | [a, b] => (readInt a).bind fun n => (readF32 b).map fun x => [.noteOff n x]
    | _ => none
  else if mnemonic = "RENDER".toList then
    match ops with
    | [a] => (readInt a).map fun n => [.render n]
    | _ => none
  else if mnemonic = "SET_ATTACK".toList then oneF32 .setAttack ops
  else if mnemonic = "SET_DECAY".toList then oneF32 .setDecay ops
  else if mnemonic = "SET_SUSTAIN".toList then oneF32 .setSustain ops
  else if mnemonic = "SET_RELEASE".toList then oneF32 .setRelease ops
  else if mnemonic = "SET_CUTOFF".toList then oneF32 .setCutoff ops
  else if mnemonic = "SET_RESONANCE".toList then oneF32 .setResonance ops
  else if mnemonic = "SET_LFO_RATE".toList then oneF32 .setLfoRate ops
  else if mnemonic = "SET_LFO_DEPTH".toList then oneF32 .setLfoDepth ops
  else if mnemonic = "SET_UNISON".toList then
    match ops with
    | [a] => (readInt a).map fun n => [.setUnison n]
    | _ => none
  else if mnemonic = "SET_DETUNE".toList then oneF32 .setDetune ops
  else if mnemonic = "SET_WAVEFORM".toList then
    match ops with
    | [a] => (readSel a).map fun n => [.setWaveform n]
    | _ => none
  else if mnemonic = "SET_VOLUME".toList then oneF32 .setVolume ops
  else if mnemonic = "SET_ADSR".toList then
    match ops with
    | [a, d, s, r] =>
      (readF32 a).bind fun a => (readF32 d).bind fun d => (readF32 s).bind fun s => (readF32 r).map fun r =>
        expandPseudo (.setAdsr a d s r)
    | _ => none
  else if mnemonic = "SET_FILTER".toList then
    match ops with
    | [c, q] => (readF32 c).bind fun c => (readF32 q).map fun q => expandPseudo (.setFilter c q)
    | _ => none
  else if mnemonic = "SET_LFO".toList then
    match ops with
    | [r, d] => (readF32 r).bind fun r => (readF32 d).map fun d => expandPseudo (.setLfo r d)
    | _ => none
  else if mnemonic = "SET_UNISON_DETUNE".toList then
    match ops with
    | [n, d] => (readInt n).bind fun n => (readF32 d).map fun d => expandPseudo (.setUnisonDetune n d)
    | _ => none
  else if mnemonic = "SILENCE".toList then
    match ops with
    | [a] => (readInt a).map fun n => expandPseudo (.silence n)
    | _ => none
  else none

/-- The port prefix of a line and the rest of it (R69). -/
def readPort (cs : List Char) : Option Port × List Char :=
  match cs with
  | 'C' :: ':' :: rest => (some .c, skipBlanks rest)
  | 'P' :: ':' :: rest => (some .p, skipBlanks rest)
  | _ => (none, cs)

/-- One line: an optional port prefix, a mnemonic, its operands. The assembler refuses an operand that does not fit its field
(R69). -/
def readLine (cs : List Char) : Option (Option Port × List Instr) :=
  let pr := readPort (skipBlanks cs)
  let mo := cutAt ' ' pr.2
  match readCommand mo.1 (readOperands (mo.2.getD [])) with
  | none => none
  | some is => if is.all Instr.wf then some (pr.1, is) else none

/-- The words a line assembles to. -/
def assembleLine (cs : List Char) : Option (List Word64) := (readLine cs).map fun r => r.2.map encode

end Sys2Proof.Machine
end

