-- ==== Sys2Proof/Tests/Slice0.lean ====
section
/-! SUPPORT. Tests: expected results are the worked examples and vectors of spec/ (named by rule, or by section of
95_test_vectors.md), or hand calculation from the rules. The `witness_` theorems give, for each obligation with hypotheses, a
concrete state and operands that meet them, at the boundaries of each clause. -/

namespace Sys2Proof.Machine.Tests

open Sys2Proof Sys2Proof.Machine

/-! ### Helpers -/

/-- The next state of an outcome. -/
def after : Host.Outcome State Fault Refusal → Option State
  | .next s => some s
  | .fault _ => none
  | .refused _ => none

/-- A field of the next state. -/
def see {α : Type} (f : State → α) (o : Host.Outcome State Fault Refusal) : Option α := (after o).map f

/-- Slot 0. -/
def slot0 (s : State) : Voice := voiceAt s 0

/-- The reset state prepared at a rate and block size. -/
def prepared (fs : F32) (maxBlock : Nat) : State := { State.reset with cfg := ⟨true, fs, maxBlock⟩ }

/-- The reset state with a C-port word waiting and the renderer next. -/
def withC (w : Word64) (s : State) : State := { s with cPort := [w], turns := [.renderer] }

/-- The reset state with a P-port word to be written and the control agent next. -/
def withP (w : Word64) (s : State) : State := { s with controlScript := [.write w], turns := [.control] }

/-- An active voice on a note, just started. -/
def started (note : Nat) : Voice := startVoice note fOne Voice.reset

/-- A pool of two, on notes 60 and 64 (S7). -/
def twoVoices : State :=
  { State.resetOf { Params.default with poolSize := 2 } with
    cfg := ⟨true, 0x472C4400#32, 64⟩, voices := [started 60, started 64] }

/-! ### Well-formedness: each check refuses an ill-formed term and passes the boundary -/

theorem test_wf_maxBlock : (Instr.prepare 0 65536).wf = false ∧ (Instr.prepare 0 65535).wf = true := by decide
theorem test_wf_noteOn : (Instr.noteOn 256 0).wf = false ∧ (Instr.noteOn 255 0).wf = true := by decide
theorem test_wf_noteOff : (Instr.noteOff 256 0).wf = false ∧ (Instr.noteOff 255 0).wf = true := by decide
theorem test_wf_render : (Instr.render 65536).wf = false ∧ (Instr.render 65535).wf = true := by decide
theorem test_wf_unison : (Instr.setUnison 65536).wf = false ∧ (Instr.setUnison 65535).wf = true := by decide
theorem test_wf_waveform : (Instr.setWaveform 256).wf = false ∧ (Instr.setWaveform 255).wf = true := by decide

/-! ### Decoding: one word of each command, from R69, R72 and vectors §2.1, §2.8, §3 -/

theorem test_decode_nop : decode .c 0x0 = .ok .nop ∧ decode .p 0x0 = .ok .nop := by decide
theorem test_decode_prepare : decode .c 0x472C440002000001 = .ok (.prepare 0x472C4400#32 512) := by decide
theorem test_decode_noteOn : decode .c 0x3F80000000003C02 = .ok (.noteOn 60 0x3F800000#32) := by decide
theorem test_decode_noteOff : decode .c 0x7FC0000000004503 = .ok (.noteOff 69 0x7FC00000#32) := by decide
theorem test_decode_render : decode .c 0x0000000000410004 = .ok (.render 65) := by decide
theorem test_decode_setAttack : decode .p 0xBF80000000000010 = .ok (.setAttack 0xBF800000#32) := by decide
theorem test_decode_setDecay : decode .p 0x3E80000000000011 = .ok (.setDecay 0x3E800000#32) := by decide
theorem test_decode_setSustain : decode .p 0x8000000000000012 = .ok (.setSustain 0x80000000#32) := by decide
theorem test_decode_setRelease : decode .p 0x38D1B71700000013 = .ok (.setRelease 0x38D1B717#32) := by decide
theorem test_decode_setCutoff : decode .p 0x4743500000000014 = .ok (.setCutoff 0x47435000#32) := by decide
theorem test_decode_setResonance : decode .p 0x3D4CCCCD00000015 = .ok (.setResonance 0x3D4CCCCD#32) := by decide
theorem test_decode_setLfoRate : decode .p 0x4596000000000016 = .ok (.setLfoRate 0x45960000#32) := by decide
theorem test_decode_setLfoDepth : decode .p 0x447A000000000017 = .ok (.setLfoDepth 0x447A0000#32) := by decide
theorem test_decode_setUnison : decode .p 0x0000000000640018 = .ok (.setUnison 100) := by decide
theorem test_decode_setDetune : decode .p 0x4150000000000019 = .ok (.setDetune 0x41500000#32) := by decide
theorem test_decode_setWaveform : decode .p 0x000000000000031A = .ok (.setWaveform 3) := by decide
theorem test_decode_setVolume : decode .p 0x400000000000001B = .ok (.setVolume 0x40000000#32) := by decide

/-- §2.1: the words with a reserved field that is not zero. -/
theorem test_reserved_fields :
    ([0x0000000000000100, 0x472C440002000101, 0x3F80000000013C02, 0x0000000100040004, 0x0000000000040104] :
      List Word64).all (fun w => decide (decode .c w = .error .reservedField)) = true ∧
    ([0x4743500000000114, 0x3F80000000030018, 0x000000000001011A] :
      List Word64).all (fun w => decide (decode .p w = .error .reservedField)) = true := by decide

/-- §2.1 and P5: the wrong port. -/
theorem test_wrong_port :
    decode .p 0x472C440002000001 = .error .wrongPort ∧ decode .p 0x3F80000000003C02 = .error .wrongPort ∧
    decode .c 0x000000000000011A = .error .wrongPort ∧ decode .c 0x3F0000000000001B = .error .wrongPort := by decide

/-- R68, R185: the port is checked before the reserved fields. -/
theorem test_check_order : decode .p 0x0000000000010002 = .error .wrongPort := by decide

/-- R43: the opcode byte comes first. -/
theorem test_bytes : wordBytes 0x472C440002000001 = [0x01, 0x00, 0x00, 0x02, 0x00, 0x44, 0x2C, 0x47] := by decide

/-- The interface functions: a C-port row, a P-port row, a rejected word. -/
theorem test_table_words :
    decodeTableWord 64 0x0000000000030004 = some (.render 3) ∧
    decodeTableWord 64 0x3F0000000000001B = some (.setVolume 0x3F000000#32) ∧
    decodeTableWord 64 0x0000000000000105 = none := by decide

/-- The very next step runs the placed word. -/
theorem test_placed_words :
    see (fun s => (s.shadow.volume, s.pPos)) (step (State.reset.withFetchWord 64 0x3F0000000000001B)) =
      some (0x3F000000#32, 1) ∧
    see (fun s => (s.cfg.maxBlock, s.cPos)) (step (State.reset.withFetchWord 64 0x472C440002000001)) = some (512, 1) := by
  decide +kernel

/-! ### Assembler notation (R69 to R71) -/

/-- R70: a literal that rounds to zero is `+0.0` (log 27), one past the largest f32 an infinity (log 28); the form (log 30). -/
theorem test_decimal_limits :
    readF32 "-1e-60".toList = some 0#32 ∧ readF32 "1e39".toList = some 0x7F800000#32 ∧
    readF32 ".5".toList = none ∧ readF32 "1E5".toList = none ∧ readF32 "+1.0".toList = none ∧
    readF32 "1.".toList = some 0x3F800000#32 ∧ readF32 "1e+5".toList = some 0x47C35000#32 ∧
    readF32 "-0.5".toList = some 0xBF000000#32 ∧ readF32 "0.1".toList = some 0x3DCCCCCD#32 := by decide +kernel

/-- R69, R70: lines of the table of R69 and of P3 and P5. -/
theorem test_assembler :
    assembleLine "PREPARE 28160.0, 64".toList = some [0x46DC000000400001] ∧
    assembleLine "C: NOTE_ON 69, 1.0".toList = some [0x3F80000000004502] ∧
    assembleLine "SET_WAVEFORM SQUARE".toList = some [0x000000000000011A] ∧
    assembleLine "P: SET_RELEASE 1e-4".toList = some [0x38D1B71700000013] ∧
    assembleLine "SET_RESONANCE 0.05".toList = some [0x3D4CCCCD00000015] ∧
    assembleLine "SET_ATTACK f32:0x3B800000".toList = some [0x3B80000000000010] ∧
    assembleLine "SET_DECAY inf".toList = some [0x7F80000000000011] ∧
    assembleLine "NOTE_ON 256, 1.0".toList = none := by decide +kernel

/-- R71: the expansions, in their order. -/
theorem test_pseudo :
    assembleLine "SET_FILTER 50000.0, 0.05".toList = some [0x4743500000000014, 0x3D4CCCCD00000015] ∧
    assembleLine "SET_UNISON_DETUNE 3, 12.0".toList = some [0x0000000000030018, 0x4140000000000019] ∧
    assembleLine "SILENCE 4".toList = some [0x0000000000040004] := by decide +kernel

/-! ### Arithmetic (R13 to R19) -/

/-- R89, R92, R116: one rounding per operator. -/
theorem test_arithmetic :
    fMul 0x38D1B717#32 0x3F800000#32 = 0x38D1B717#32 ∧ fDiv 0x3F800000#32 0x40400000#32 = 0x3EAAAAAB#32 ∧
    fMul 0x473B8000#32 0x3A83126F#32 = 0x42400001#32 ∧ fDiv 0x3F800000#32 0x42400001#32 = 0x3CAAAAAA#32 ∧
    fAdd 0#32 0x80000000#32 = 0#32 ∧ fMul 0xBF8CDE72#32 0#32 = 0x80000000#32 ∧
    isInf (fMul 0xBFE648CB#32 0xFF61B1E6#32) = true := by decide +kernel

/-- R92: the exact remainder after the rounded sum. -/
theorem test_fmod :
    fMod (fAdd 0x447F0000#32 0x41800000#32) 0x44800000#32 = 0x41400000#32 ∧
    fMod (fAdd 0x44610000#32 0x43E411F0#32) 0x44800000#32 = 0x43A611F0#32 := by decide +kernel

/-- R97, R18, R19: `2^x` at fractions and at integers. -/
theorem test_exp2 :
    fexp2 .default 0xBDAAAAAB#32 = 0x3F71A1BF#32 ∧ fexp2 .default 0xC2000000#32 = 0x2F800000#32 ∧
    fexp2 .default 0#32 = 0x3F800000#32 ∧ fexp2 .default 0x43000000#32 = 0x7F800000#32 := by decide +kernel

/-! ### Tables and the oscillator -/

/-- §2.2: the four tables at length 4. -/
theorem test_tables_of_four :
    (List.range 4).map (tableEntry 4 .sine) = [0#32, 0x3F800000#32, 0#32, 0xBF800000#32] ∧
    (List.range 4).map (tableEntry 4 .square) = [0x3F800000#32, 0x3F800000#32, 0xBF800000#32, 0xBF800000#32] ∧
    (List.range 4).map (tableEntry 4 .triangle) = [0#32, 0x3F800000#32, 0#32, 0xBF800000#32] ∧
    (List.range 4).map (tableEntry 4 .sawtooth) = [0xBF800000#32, 0xBF000000#32, 0#32, 0x3F000000#32] := by
  decide +kernel

/-- §2.2: entries at length 1024. -/
theorem test_tables_of_1024 :
    tableEntry 1024 .sine 1 = 0x3BC90F88#32 ∧ tableEntry 1024 .sine 128 = 0x3F3504F3#32 ∧
    tableEntry 1024 .sine 1023 = 0xBBC90F88#32 ∧ tableEntry 1024 .triangle 255 = 0x3F7F0000#32 ∧
    tableEntry 1024 .triangle 1023 = 0xBB800000#32 ∧ tableEntry 1024 .sawtooth 1 = 0xBF7F8000#32 ∧
    tableEntry 1024 .sawtooth 1023 = 0x3F7F8000#32 := by decide +kernel

/-- R89 and S2. -/
theorem test_phaseInc :
    phaseInc 1024 0x46DC0000#32 69 = 0x41800000#32 ∧ phaseInc 1024 0x46DC0000#32 60 = 0x411837F0#32 ∧
    phaseInc 1024 0x46DC0000#32 0 = 0x3E9837F0#32 ∧ phaseInc 1024 0x46DC0000#32 127 = 0x43E411F0#32 ∧
    phaseInc 1024 0x472C4400#32 69 = 0x412377EE#32 ∧ phaseInc 1024 0x447A0000#32 127 = 0x4648B3A0#32 := by decide +kernel

/-- R97. -/
theorem test_layout :
    layout .default 3 0x41400000#32 = [0x3F000000#32, 0x3F800000#32, 0x40000000#32, 0, 0, 0, 0, 0] ∧
    layout .default 4 0x3F000000#32 = [0x3F71A1BF#32, 0x3F78B651#32, 0x3F800000#32, 0x3F83C02D#32, 0, 0, 0, 0] ∧
    layout .default 3 0x3DCCCCCD#32 = [0x3F7E868A#32, 0x3F800000#32, 0x3F80BDD3#32, 0, 0, 0, 0, 0] := by decide +kernel

/-- §2.3: a half rounds up, the top wraps. -/
theorem test_tableIndex :
    tableIndex 1024 0x3F000000#32 fOne = 1 ∧ tableIndex 1024 0x3EFFFFFF#32 fOne = 0 ∧
    tableIndex 1024 0x447FE000#32 fOne = 0 ∧ tableIndex 1024 0x447FDFFF#32 fOne = 1023 ∧
    tableIndex 1024 0x447A0000#32 fTwo = 976 ∧ tableIndex 1024 0x42C8999A#32 0x3F7E868A#32 = 100 := by decide +kernel

/-- §2.3: the sine readout at `N = 3`, detune `CR(0.1)`. -/
theorem test_readout :
    unisonReadout .default
      { Bank.reset .default with unison := 3, ratio := [0x3F7E868A#32, 0x3F800000#32, 0x3F80BDD3#32, 0, 0, 0, 0, 0] }
      0x42C8999A#32 = 0x3F13D584#32 := by decide +kernel

/-! ### Envelope and filter -/

/-- Quarter-second-per-frame bank of R116. -/
def bank116 : Bank :=
  { Bank.reset .default with attack := 0x3B800000#32, decay := 0x3B800000#32, sustain := 0x3F000000#32, release := 0x3B800000#32 }

/-- The stage and level after `n` advances at `FS = 1024`. -/
def envAt (v : Voice) (n : Nat) : Stage × F32 :=
  let w := (envAdvance bank116 0x44800000#32)^[n] v
  (w.stage, w.level)

/-- R116: attack, decay, sustain. -/
theorem test_envelope :
    (List.range 9).map (envAt (started 69)) =
      [(.attack, 0#32), (.attack, 0x3E800000#32), (.attack, 0x3F000000#32), (.attack, 0x3F400000#32), (.decay, 0x3F800000#32),
       (.decay, 0x3F600000#32), (.decay, 0x3F400000#32), (.decay, 0x3F200000#32), (.sustain, 0x3F000000#32)] := by
  decide +kernel

/-- R116: release from Sustain. -/
theorem test_release :
    (List.range 5).map (envAt { started 69 with stage := .release, level := 0x3F000000#32, relStart := 0x3F000000#32 }) =
      [(.release, 0x3F000000#32), (.release, 0x3EC00000#32), (.release, 0x3E800000#32), (.release, 0x3E000000#32),
       (.idle, 0#32)] := by decide +kernel

/-- R115 (v): frame 49 of the rounded attack, from the level of frame 48. -/
theorem test_rounded_attack :
    (envAdvance { Bank.reset .default with attack := 0x3A83126F#32 } 0x473B8000#32
      { started 69 with level := 0x3F7FFFF9#32 }).stage = .decay := by decide +kernel

/-- The five coefficients. -/
def coeffs (v : Voice) : List F32 := [v.b0, v.b1, v.b2, v.a1, v.a2]

/-- R129 and §2.5: coefficients. -/
theorem test_coefficients :
    coeffs (coeffStep .default (Bank.reset .default) 0x472C4400#32 { Voice.reset with cutoffEff := 0x447A0000#32 }) =
      [0x3B96DD3B#32, 0x3C16DD3B#32, 0x3B96DD3B#32, 0xBFE648CB#32, 0x3F51487F#32] ∧
    coeffs (coeffStep .default (Bank.reset .default) 0x46DC0000#32 Voice.reset) =
      [0x3F74E004#32, 0x3FF4E004#32, 0x3F74E004#32, 0x3FF4A21B#32, 0x3F6A3BDC#32] ∧
    coeffs (coeffStep .default (Bank.reset .default) 0x493B8000#32 { Voice.reset with cutoffEff := 0x41A00000#32 }) =
      [0#32, 0#32, 0#32, 0xBFFFF86A#32, 0x3F7FF0D5#32] := by decide +kernel

/-- P4, frame 3: the LFO, the cutoff and the coefficients. -/
theorem test_filterUpdate :
    let b : Bank := { Bank.reset .default with
      cutoff := 0x46985800#32, resonance := 0x3DCCCCCD#32, lfoRate := 0x45960000#32, lfoDepth := 0x447A0000#32 }
    let w := filterUpdate .default b 0x473B8000#32 { started 60 with lfoPhase := 0x3E4CCCCD#32 }
    w.lfoPhase = 0x3E99999A#32 ∧ w.cutoffEff = 0x469AA70A#32 ∧
    coeffs w = [0x3E832CDB#32, 0x3F032CDB#32, 0x3E832CDB#32, 0x3EF16FA4#32, 0xBEE4BC37#32] := by decide +kernel

/-- R127: the guard as §2.5 sets it up. -/
theorem test_filter_guard :
    let v : Voice := { started 60 with b0 := 0x3B96DD3B#32, b1 := 0x3C16DD3B#32, b2 := 0x3B96DD3B#32, a1 := 0xBFE648CB#32, a2 := 0x3F51487F#32, y1 := 0xFF61B1E6#32 }
    isFinite (filterSum v 0#32) = false ∧ filterOut v 0#32 = 0#32 ∧ (filterStep v 0#32).y1 = 0#32 := by decide +kernel

/-- §2.6: a retrigger keeps the phase and the history. -/
theorem test_retrigger :
    let v : Voice := { started 60 with stage := .sustain, level := 0x3F333333#32, phase := 0x43960000#32, x1 := 0x3F000000#32 }
    startVoice 62 0x3F000000#32 v =
      { v with note := 62, velocity := 0x3F000000#32, stage := .attack, level := 0#32, relStart := 0#32 } := by decide

/-! ### Commands -/

theorem test_nop : see id (exec .nop twoVoices) = some twoVoices := by decide

/-- R163 (b): the rejected words, and an accepted one. -/
theorem test_prepare :
    ([0x0000000000400001, 0x43FA000002000001, 0x7FC0000002000001, 0x472C440000000001] : List Word64).all
      (fun w => decide (see (fun s => s.cfg) (runWord .c w (prepared 0x46DC0000#32 64)) =
        some ⟨true, 0x46DC0000#32, 64⟩)) = true ∧
    see (fun s => s.cfg) (runWord .c 0x472C440000040001 State.reset) = some ⟨true, 0x472C4400#32, 4⟩ := by decide +kernel

/-- §2.7: the velocity clamp, and a NaN. -/
theorem test_noteOn :
    ([0x3FC00000#32, 0xBF000000#32, 0x80000000#32, 0x7F800000#32, 0xFF800000#32, 0x3F000000#32, 0x7FC00000#32].map fun v =>
      see (fun s => ((slot0 s).active, (slot0 s).velocity)) (exec (.noteOn 1 v) State.reset)) =
    [some (true, 0x3F800000#32), some (true, 0#32), some (true, 0#32), some (true, 0x3F800000#32), some (true, 0#32),
     some (true, 0x3F000000#32), some (false, 0#32)] := by decide +kernel

/-- S7, R149: the third note of a pool of two is dropped. -/
theorem test_noteOn_full : see id (exec (.noteOn 67 fOne) twoVoices) = some twoVoices := by decide +kernel

/-- R151: only the active voice on the note is released, from its level. -/
theorem test_noteOff :
    see (fun s => s.voices.map fun v => (v.stage, v.relStart))
      (exec (.noteOff 60 0x7FC00000#32)
        { twoVoices with voices := [{ started 60 with level := 0x3B149B94#32 }, started 64] }) =
      some [(.release, 0x3B149B94#32), (.attack, 0#32)] := by decide +kernel

/-- R163 (a), (f): unprepared and oversized blocks are silent and do not touch `FRAMES_LEFT`. -/
theorem test_render_silent :
    see (fun s => (s.output, s.framesLeft, s.silentLeft)) (exec (.render 4) State.reset) = some ([], 0, 4) ∧
    see (fun s => (s.output, s.framesLeft, s.silentLeft)) (exec (.render 65) (prepared 0x46DC0000#32 64)) = some ([], 0, 65) := by
  decide +kernel

/-- R59, R158: one silent frame, at whose boundary a read falls. -/
theorem test_silent_frame :
    see (fun s => (s.output, s.silentLeft, s.answers.length)) (step { State.reset with silentLeft := 4 }) =
      some ([[0#32, 0#32]], 3, 0) ∧
    see (fun s => (s.output, s.silentLeft, s.answers.length))
      (step { State.reset with silentLeft := 3, hostScript := [.read 0], turns := [.host] }) = some ([], 3, 1) := by
  decide +kernel

/-- R159: `RENDER 0` publishes. -/
theorem test_render_zero :
    see (fun s => (s.active.volume, s.output, s.framesLeft))
      (exec (.render 0) { prepared 0x472C4400#32 4 with shadow := { Bank.reset .default with volume := 0x3E800000#32 } }) =
      some (0x3E800000#32, [], 0) := by decide +kernel

/-- P1 and R143: the state before its first frame. -/
def p1 (v : Voice) : State :=
  { prepared 0x46DC0000#32 64 with
    active := { Bank.reset .default with waveform := .square, attack := 0#32, decay := 0#32 }
    voices := v :: List.replicate 15 Voice.reset, framesLeft := 3 }

/-- P1, frame 1. -/
theorem test_frame_one :
    see (fun s => (s.output, (slot0 s).phase, (slot0 s).stage, (slot0 s).y1, s.framesLeft)) (step (p1 (started 69))) =
      some ([[0x3D74E004#32, 0x3D74E004#32]], 0x41800000#32, .decay, 0x3F74E004#32, 2) := by decide +kernel

/-- P1, frame 3, from the state of frame 2. -/
theorem test_frame_three :
    see (fun s => (s.output, (slot0 s).phase, voiceStatus (slot0 s)))
      (step (p1 { started 69 with
        stage := .sustain, level := 0x3F800000#32, phase := 0x42000000#32, x1 := 0x3F800000#32, x2 := 0x3F800000#32,
        y1 := 0x3F854F73#32, y2 := 0x3F74E004#32 })) =
      some ([[0x3D75E17A#32, 0x3D75E17A#32]], 0x42400000#32, 0x00004507#32) := by decide +kernel

/-- P3, frame 12: the voice reaches Idle, is freed, and its `-0.0` sample leaves a `+0.0` frame. -/
theorem test_frame_freed :
    see (fun s => (s.output, (slot0 s).active, (slot0 s).stage, (slot0 s).relStart, (slot0 s).phase, (slot0 s).y1))
      (step { prepared 0x44800000#32 16 with
        active := { bank116 with waveform := .square }, framesLeft := 1
        voices := { started 69 with
          stage := .release, level := 0x3E000000#32, relStart := 0x3F000000#32, phase := 0x443A0000#32, x1 := 0x3F800000#32,
          x2 := 0xBF800000#32, y1 := 0x3F99982F#32, y2 := 0xBFA6DE41#32 } :: List.replicate 15 Voice.reset }) =
      some ([[0#32, 0#32]], false, .idle, 0#32, 0x43200000#32, 0xBF8CDE72#32) := by decide +kernel

/-- The shadow parameter word a P-port word leaves, from reset. -/
def shadowAfter (w : Word64) (i : Nat) : Option Word32 := see (fun s => paramWord s.shadow i) (runWord .p w State.reset)

/-- §2.8: the envelope setters and the volume. -/
theorem test_envelope_setters :
    shadowAfter 0xBF80000000000010 0 = some 0#32 ∧ shadowAfter 0x3E80000000000011 1 = some 0x3E800000#32 ∧
    shadowAfter 0x8000000000000012 2 = some 0#32 ∧ shadowAfter 0x3FC0000000000012 2 = some 0x3F800000#32 ∧
    shadowAfter 0x38D1B71700000013 3 = some 0x38D1B717#32 ∧ shadowAfter 0x3F0000000000001B 11 = some 0x3F000000#32 ∧
    shadowAfter 0x400000000000001B 11 = some 0x3F800000#32 := by decide +kernel

/-- §2.8: the filter and LFO setters. -/
theorem test_filter_setters :
    shadowAfter 0x4120000000000014 4 = some 0x41A00000#32 ∧ shadowAfter 0x469C3E0000000014 4 = some 0x469C3E00#32 ∧
    shadowAfter 0x4743500000000014 4 = some 0x469C4000#32 ∧ shadowAfter 0x3D4CCCCD00000015 5 = some 0x3DCCCCCD#32 ∧
    shadowAfter 0x7F80000000000015 5 = some 0x3F3504F3#32 ∧ shadowAfter 0xC0A0000000000016 6 = some 0#32 ∧
    shadowAfter 0xFFC0000000000017 7 = some 0#32 := by decide +kernel

/-- §2.8: unison, detune, waveform. -/
theorem test_oscillator_setters :
    shadowAfter 0x0000000000000018 8 = some 1#32 ∧ shadowAfter 0x0000000000640018 8 = some 8#32 ∧
    shadowAfter 0xBF80000000000019 9 = some 0#32 ∧ shadowAfter 0x4150000000000019 9 = some 0x41400000#32 ∧
    shadowAfter 0x000000000000031A 10 = some 3#32 ∧ shadowAfter 0x000000000000041A 10 = some 0#32 := by decide +kernel

/-- S6: the layout after SET_UNISON 3 and after SET_UNISON 2, at detune 12. -/
theorem test_unison_layout :
    let s : State := { State.reset with shadow := { Bank.reset .default with detune := 0x41400000#32 } }
    see (fun s => s.shadow.ratio) (exec (.setUnison 3) s) =
      some [0x3F000000#32, 0x3F800000#32, 0x40000000#32, 0, 0, 0, 0, 0] ∧
    see (fun s => s.shadow.ratio) (exec (.setUnison 2) s) = some [0x3F000000#32, 0x3F800000#32, 0, 0, 0, 0, 0, 0] := by
  decide +kernel

/-! ### The R-port (§2.9, S8) -/

theorem test_reset_words :
    [0x0, 0x1, 0x2, 0x3, 0x0100, 0x0104, 0x0105, 0x0108, 0x010B, 0x0180, 0x0181, 0x0204, 0x0280, 0x1000, 0x1006, 0x10F6].map
      (memRead State.reset) =
    [0#32, 0#32, 0#32, 0x0A020810#32, 0x3DCCCCCD#32, 0x469C4000#32, 0x3F3504F3#32, 1#32, 0x3F800000#32, 0x3F800000#32, 0#32,
     0x469C4000#32, 0x3F800000#32, 0#32, 0x469C4000#32, 0x469C4000#32] := by decide +kernel

theorem test_rport :
    memRead State.reset 0x10400 = 0x3F800000#32 ∧ memRead State.reset 0x10600 = 0xBF800000#32 ∧
    memRead State.reset 0x10900 = 0x3F800000#32 ∧ memRead twoVoices 0x0 = 0x00000201#32 ∧
    memRead twoVoices 0x3 = 0x0A020802#32 ∧ memRead twoVoices 0x1010 = 0x00004003#32 := by decide +kernel

/-! ### Witnesses: states and operands that meet the hypotheses of each obligation -/

theorem witness_DecodeOfEncodeIsTheCommand :
    (Instr.setWaveform 255).wf = true ∧ legalOn (instrOpcode (.setWaveform 255)) .p = true ∧
    (Instr.prepare 0xFFFFFFFF#32 65535).wf = true ∧ legalOn (instrOpcode (.prepare 0xFFFFFFFF#32 65535)) .c = true := by decide

theorem witness_DecodedWordIsItsEncoding :
    decode .p 0xFFFFFFFF0000001B = .ok (.setVolume 0xFFFFFFFF#32) ∧ decode .c 0x00000000FFFF0004 = .ok (.render 65535) := by
  decide

theorem witness_ReservedOpcodesRejected :
    ([0x05, 0x0F, 0x1C, 0xFF] : List Word64).all (fun w =>
      decide (decode .c w = .error .reservedOpcode) && decide (decode .p w = .error .reservedOpcode)) = true ∧
    decode .c 0x04 ≠ .error .reservedOpcode ∧ decode .p 0x10 ≠ .error .reservedOpcode ∧
    decode .p 0x1B ≠ .error .reservedOpcode := by decide

theorem witness_WrongPortRejected :
    0x01 ≤ (opcField 0x01).toNat ∧ (opcField 0x04).toNat ≤ 0x04 ∧ 0x10 ≤ (opcField 0x10).toNat ∧
    (opcField 0x1B).toNat ≤ 0x1B ∧ opcField 0xFF00 = 0x00 := by decide

/-- The first and the last row, a matching word and one that does not match; and the rows with an `A8` operand. -/
theorem witness_ReservedFieldRejected :
    opcField 0x0 = 0x00 ∧ (0x0 : Word64) &&& 0xFFFFFFFFFFFFFFFF = (0x00 : Byte).setWidth 64 ∧
    opcField 0x100 = 0x00 ∧ (0x100 : Word64) &&& 0xFFFFFFFFFFFFFFFF ≠ (0x00 : Byte).setWidth 64 ∧
    opcField 0xFFFFFFFF0000001B = 0x1B ∧ (0xFFFFFFFF0000001B : Word64) &&& 0x00000000FFFFFFFF = (0x1B : Byte).setWidth 64 ∧
    (0x8000001B : Word64) &&& 0x00000000FFFFFFFF ≠ (0x1B : Byte).setWidth 64 ∧
    (0xFF1A : Word64) &&& 0xFFFFFFFFFFFF00FF = (0x1A : Byte).setWidth 64 ∧
    (0x1001A : Word64) &&& 0xFFFFFFFFFFFF00FF ≠ (0x1A : Byte).setWidth 64 := by decide

theorem witness_BytesAreLittleEndian : (7 : Nat) < 8 := by decide

theorem witness_StepRunsTheDecodedCommand :
    let s := withC 0x0000000000030004 twoVoices
    let u := withP 0x3F0000000000001B twoVoices
    takesWord s ∧ s.cPort = [0x0000000000030004] ∧
    decode .c 0x0000000000030004 = .ok (.render 3) ∧
    nextAgent u = .control ∧ u.controlScript = [.write 0x3F0000000000001B] ∧
    decode .p 0x3F0000000000001B = .ok (.setVolume 0x3F000000#32) := by unfold takesWord; decide

theorem witness_RejectedWordOnlyAdvancesThePosition :
    let s := withC 0x7FC0000000003C02 twoVoices
    let u := withP 0x000000000000041A twoVoices
    takesWord s ∧ s.cPort = [0x7FC0000000003C02] ∧
    verdict s.params .c 0x7FC0000000003C02 = some .velocityNaN ∧
    nextAgent u = .control ∧ u.controlScript = [.write 0x000000000000041A] ∧
    verdict u.params .p 0x000000000000041A = some .selectorOutOfRange := by unfold takesWord; decide

/-- Each of the ten conditions of R183 is met by a word, and an accepted word meets none. -/
theorem witness_RejectedExactlyUnderTheTenConditions :
    ([0x05, 0x10, 0x100, 0x0000000000400001, 0x43FA000002000001, 0x472C440000000001, 0x3F80000000008002,
      0x7FC0000000003C02, 0x472C440002000001] : List Word64).map (verdict .default .c) =
      [some .reservedOpcode, some .wrongPort, some .reservedField, some .rateNotPositive, some .rateOutOfRange,
       some .blockNotPositive, some .noteOutOfRange, some .velocityNaN, none] ∧
    ([0x7F80000000000011, 0x000000000000041A, 0x000000000000031A] : List Word64).map (verdict .default .p) =
      [some .nonFinitePayload, some .selectorOutOfRange, none] := by decide +kernel

theorem witness_StreamPositionCountsTakenWords :
    let s := withC 0x0 twoVoices
    let u := withP 0x0 twoVoices
    see (fun t => (t.cPos, t.pPos)) (step s) = some (1, 0) ∧ see (fun t => (t.cPos, t.pPos)) (step u) = some (0, 1) ∧
    see (fun t => (t.cPos, t.pPos)) (step twoVoices) = some (0, 0) ∧
    (let h := { twoVoices with cPort := [0x4], hostScript := [.write 0x0000000000030004], turns := [.host] }
     nextAgent h = .host ∧ h.hostScript = [.write 0x0000000000030004] ∧
     see (fun t => (t.cPort, t.cPos, t.hostScript)) (step h) = some ([0x4, 0x0000000000030004], 0, [])) := by decide

theorem witness_OnlyPrepareWritesConfiguration :
    see (fun t => decide (t.cfg ≠ State.reset.cfg)) (step (withC 0x472C440000040001 State.reset)) = some true := by
  decide +kernel

theorem witness_OnlyTheLatchWritesActive :
    let s := withC 0x4 { twoVoices with shadow := { Bank.reset .default with volume := 0#32 } }
    see (fun t => decide (t.active ≠ s.active)) (step s) = some true ∧
    decode .c 0x4 = .ok (.render 0) ∧ s.cfg.prepared = true ∧ (0 : Nat) ≤ s.cfg.maxBlock ∧
    (let u := withC 0x0000000000410004 twoVoices
     decode .c 0x0000000000410004 = .ok (.render 65) ∧ takesWord u ∧ takesWord s ∧
     ¬ (u.cfg.prepared = true ∧ 65 ≤ u.cfg.maxBlock)) := by unfold takesWord; decide +kernel

theorem witness_EachAgentWritesItsOwnState :
    see (fun t => decide (t.shadow = twoVoices.shadow)) (step (withP 0x1B twoVoices)) = some false ∧
    nextAgent (withP 0x1B twoVoices) ≠ .renderer ∧ nextAgent (withC 0x4 twoVoices) ≠ .control := by decide +kernel

theorem witness_PPortCommandsTouchShadowOnly :
    let s' := { twoVoices with framesLeft := 3, cfg := ⟨false, 0#32, 0⟩, voices := [] }
    s'.shadow = twoVoices.shadow ∧ s'.params = twoVoices.params ∧ s' ≠ twoVoices := by decide

/-- The accepted rates at both ends, and each reason to reject. -/
theorem witness_PrepareSetsTheConfiguration :
    let p := Params.default
    (isFinite p.fsMin = true ∧ 0 < fVal p.fsMin ∧ fLt p.fsMin p.fsMin = false ∧ fLt p.fsMax p.fsMin = false) ∧
    (isFinite p.fsMax = true ∧ 0 < fVal p.fsMax ∧ fLt p.fsMax p.fsMin = false ∧ fLt p.fsMax p.fsMax = false) ∧
    isFinite 0x7F800000#32 = false ∧ isFinite 0x7FC00000#32 = false ∧ fVal 0x80000000#32 ≤ 0 ∧
    fLt 0x4479FFFF#32 p.fsMin = true ∧ fLt p.fsMax 0x493B8001#32 = true := by decide +kernel

/-- The second slot is the lowest inactive one; the highest note and the first above it; a NaN; a full pool. -/
theorem witness_NoteOnStartsTheLowestInactiveSlot :
    let s := { twoVoices with voices := [started 60, Voice.reset] }
    s.voices[1]? = some Voice.reset ∧ Voice.reset.active = false ∧ (∀ j < 1, ∀ u, s.voices[j]? = some u → u.active = true) ∧
    (127 : Nat) ≤ 127 ∧ (127 : Nat) < 128 ∧ isNaN 0x7F800000#32 = false ∧ isNaN 0x7F800001#32 = true ∧
    (∀ u ∈ twoVoices.voices, u.active = true) := by
  refine ⟨by decide, by decide, fun j hj u hu => ?_, by decide, by decide, by decide, by decide, by decide⟩
  obtain rfl : j = 0 := by omega
  obtain rfl : started 60 = u := by simpa using hu
  decide

theorem witness_NoteOffReleasesEveryMatchingSlot :
    (127 : Nat) ≤ 127 ∧ (127 : Nat) < 128 ∧ (∀ v ∈ twoVoices.voices, v.active = true → v.note ≠ 61) := by decide

theorem witness_RenderLatchesOrEmitsSilence :
    twoVoices.cfg.prepared = true ∧ 64 ≤ twoVoices.cfg.maxBlock ∧ twoVoices.cfg.maxBlock < 65 ∧
    State.reset.cfg.prepared = false ∧ State.reset.silentLeft = 0 ∧
    (let u := { State.reset with silentLeft := 1 }
     nextAgent u = .renderer ∧ u.framesLeft = 0 ∧ 0 < u.silentLeft) := by decide

theorem witness_FrameMixesTheSlotsInOrder :
    nextAgent { twoVoices with framesLeft := 1 } = .renderer ∧ 0 < ({ twoVoices with framesLeft := 1 } : State).framesLeft := by
  decide

theorem witness_InactiveSlotHoldsStill :
    ({ twoVoices with voices := [started 60, Voice.reset] } : State).voices[1]? = some Voice.reset ∧
    Voice.reset.active = false := by decide

/-- An active voice that goes on, and two that are freed: by Idle and by the release threshold. -/
theorem witness_ActiveVoiceFrameByField :
    (started 69).active = true ∧ (envAdvance bank116 0x44800000#32 (started 69)).stage = .attack ∧
    (envAdvance bank116 0x44800000#32
      { started 69 with stage := .release, level := 0x3E000000#32, relStart := 0x3F000000#32 }).stage = .idle ∧
    (let e := envAdvance bank116 0x44800000#32 { started 69 with stage := .release, level := 0x38D1B716#32 }
     e.stage = .release ∧ fLt e.level Params.default.envEpsilon = true) := by decide +kernel

theorem witness_VelocityIsNeverHeard :
    (¬ (0x1000 ≤ (0x1000 : Word32).toNat ∧ (0x1000 : Word32).toNat < 0x1000 + 16 * twoVoices.params.poolSize ∧
      ((0x1000 : Word32).toNat - 0x1000) % 16 = 1)) ∧ twoVoices.voices.length = twoVoices.params.poolSize := by decide

theorem witness_BlockWithoutActiveVoicesIsZero :
    let s := State.reset
    1 ≤ s.params.poolSize ∧ s.params.poolSize ≤ 64 ∧ upTo fOne s.active.volume = true ∧
    (∀ v ∈ s.voices, v.active = false) := by decide +kernel

theorem witness_RenderEmitsExactlyItsFrames :
    let s := { twoVoices with cPort := [encode (.render 3)], turns := List.replicate 4 .renderer }
    let u := { State.reset with cPort := [encode (.render 1)], turns := List.replicate 2 .renderer }
    s.framesLeft = 0 ∧ s.silentLeft = 0 ∧ s.cPort = encode (.render 3) :: [] ∧ s.cfg.prepared = true ∧ 3 ≤ s.cfg.maxBlock ∧
    s.turns = List.replicate (3 + 1) .renderer ++ [] ∧
    u.framesLeft = 0 ∧ u.silentLeft = 0 ∧ u.cPort = encode (.render 1) :: [] ∧ u.cfg.prepared = false ∧
    u.turns = List.replicate (1 + 1) .renderer ++ [] := by decide

theorem witness_InterleavingCannotChangeABlock :
    let s := { twoVoices with framesLeft := 2, turns := [.control, .renderer, .host, .renderer, .control] }
    let u := { twoVoices with silentLeft := 1, turns := [.host, .renderer, .control] }
    s.turns.count .renderer = s.framesLeft + s.silentLeft ∧ u.turns.count .renderer = u.framesLeft + u.silentLeft := by decide

theorem witness_StartAndStopWriteTheirRegisters : (started 60).active = true ∧ Voice.reset.active = false := by decide

theorem witness_EnvelopeAdvancesByStage :
    (started 60).stage = .attack ∧ Voice.reset.stage = .idle ∧ ({ started 60 with stage := .decay } : Voice).stage = .decay ∧
    ({ started 60 with stage := .sustain } : Voice).stage = .sustain ∧
    ({ started 60 with stage := .release } : Voice).stage = .release := by decide

/-- `ATTACK * FS` of 2^24 exactly. -/
theorem witness_AttackReachesFullLevel :
    let b : Bank := { Bank.reset .default with attack := 0x46800000#32 }
    nonNeg b.attack = true ∧ isFinite 0x44800000#32 = true ∧ fLt 0#32 0x44800000#32 = true ∧
    fLe (fMul b.attack 0x44800000#32) 0x4B800000#32 = true ∧ (started 60).stage = .attack ∧
    upTo fOne (started 60).level = true := by decide +kernel

/-- `RELEASE` 0 and `RELEASE * FS` of 2^23 exactly; `REL_START` 0 and the smallest that is not subnormal. -/
theorem witness_ReleaseReachesIdle :
    let v : Voice := { started 60 with stage := .release, level := 0x00800000#32, relStart := 0x00800000#32 }
    let u : Voice := { started 60 with stage := .release }
    fEq 0#32 0#32 = true ∧
    fLt 0#32 (fMul 0x46000000#32 0x44800000#32) = true ∧ fLe (fMul 0x46000000#32 0x44800000#32) 0x4B000000#32 = true ∧
    v.stage = .release ∧ upTo fOne v.relStart = true ∧ upTo v.relStart v.level = true ∧ fLe 0x00800000#32 v.relStart = true ∧
    u.stage = .release ∧ upTo fOne u.relStart = true ∧ upTo u.relStart u.level = true ∧ u.relStart = 0#32 := by
  decide +kernel

theorem witness_FilterShiftsOrClearsItsHistory :
    isFinite (filterSum (started 60) fOne) = true ∧
    isFinite (filterSum { started 60 with a1 := 0xBFE648CB#32, y1 := 0xFF61B1E6#32 } 0#32) = false := by decide +kernel

theorem witness_OctaveDoublesTheIncrement :
    (4 : Nat) ≤ 4 ∧ (16384 : Nat) ≤ 16384 ∧ isFinite 0x00000001#32 = true ∧ fLt 0#32 0x00000001#32 = true ∧
    isFinite 0x7F7FFFFF#32 = true ∧ (115 : Nat) ≤ 115 ∧ (127 : Nat) ≤ 127 ∧ (0 : Int) - 69 = 12 * (-6) + 3 ∧
    (127 : Int) - 69 = 12 * 4 + 10 := by decide +kernel

/-- The statement at its corners: both ends of the rates and of the notes. -/
theorem witness_IncrementRisesWithTheNote :
    fLe 0x0D800000#32 0x0D800000#32 = true ∧ isFinite 0x7F7FFFFF#32 = true ∧
    fLt (phaseInc 4 0x7F7FFFFF#32 0) (phaseInc 4 0x7F7FFFFF#32 1) = true ∧
    fLt (phaseInc 16384 0x0D800000#32 126) (phaseInc 16384 0x0D800000#32 127) = true := by decide +kernel

theorem witness_params_legal : ParamsLegal .default where
  tableLen := ⟨10, by decide⟩
  poolSize := by decide
  unisonMax := by decide
  numChannels := by decide
  envEpsilon := by decide +kernel
  rates := by decide +kernel
  detuneMax := by decide +kernel
  nyqGuard := by decide +kernel

theorem witness_LayoutHasExactlyNEntries :
    ParamsLegal .default ∧ 8 ≤ Params.default.unisonMax ∧ between 0#32 Params.default.detuneMax 0x41400000#32 = true ∧
    between 0#32 Params.default.detuneMax 0x80000000#32 = true ∧ fVal 0x80000000#32 = 0 :=
  ⟨witness_params_legal, by decide, by decide +kernel, by decide +kernel, by decide⟩

/-- A layout of five for the first two clauses; the highest phase below the table length and the lowest for the third. -/
theorem witness_SingleOscillatorReadsTheTable :
    ({ Bank.reset .default with unison := 5 } : Bank).unison ≤ ({ Bank.reset .default with unison := 5 } : Bank).ratio.length ∧
    ParamsLegal .default ∧ (Bank.reset .default).unison = 1 ∧ layoutOk .default (Bank.reset .default) ∧
    isFinite (Bank.reset .default).detune = true ∧ below (fOfInt Params.default.tableLen) 0x447FFFFF#32 = true ∧
    below (fOfInt Params.default.tableLen) 0#32 = true :=
  ⟨by decide, witness_params_legal, rfl, by unfold layoutOk; decide +kernel, by decide, by decide +kernel, by decide +kernel⟩

theorem witness_TableEntriesAreBounded : (2 : Nat) ≤ 2 ∧ 14 ≤ 14 ∧ 16383 < 2 ^ 14 ∧ 0 < 2 ^ 2 := by decide

theorem witness_LinearTablesAreExact :
    (2 : Nat) ≤ 2 ∧ 14 ≤ 14 ∧ 16383 < 2 ^ 14 ∧ Waveform.square ≠ .sine := by decide

/-- Finite operands, an overflowing product, an exact zero sum and difference, an infinity, a zero, a NaN. -/
theorem witness_ArithmeticRoundsToNearestEven :
    isInf 0x7F800000#32 = true ∧ isInf 0xFF800000#32 = true ∧ fVal 0x80000000#32 = 0 ∧ isNaN 0x7FC00000#32 = true ∧
    fVal fOne - fVal fOne = 0 ∧ fSub fOne fOne = 0#32 ∧ fSub 0x80000000#32 0#32 = 0x80000000#32 ∧
    fDiv 0xBF800000#32 0#32 = 0xFF800000#32 ∧ fDiv fOne 0x7F800000#32 = 0#32 ∧
    isFinite 0x7F7FFFFF#32 = true ∧ fVal 0x7F7FFFFF#32 ≠ 0 ∧ fMul 0x7F7FFFFF#32 0x7F7FFFFF#32 = fInf false ∧
    fVal fOne + fVal 0xBF800000#32 = 0 ∧ fAdd fOne 0xBF800000#32 = 0#32 := by decide +kernel

theorem witness_TranscendentalsKeepTheirProperties :
    isFinite 0xC3150000#32 = true ∧ -149 * (2 ^ 149 : Int) ≤ fVal 0xC3150000#32 ∧ (126 : Int).natAbs ≤ 126 ∧
    (-126 : Int).natAbs ≤ 126 := by decide +kernel

theorem witness_SineAndCosineAreNearest :
    Params.default.transcendental = .cr ∧ isFinite 0x7F7FFFFF#32 = true ∧ isFinite 0xFF7FFFFF#32 = true ∧ (2 : Nat) ≤ 2 ∧ (14 : Nat) ≤ 14 ∧ 16383 < 2 ^ 14 := by
  decide

/-- Every bound at its end. -/
theorem witness_FilterCoefficientsAreFinite :
    Params.default.transcendental = .cr ∧ Params.default.nyqGuard = 0x3EFAE148#32 ∧ fLe 0x447A0000#32 0x447A0000#32 = true ∧
    fLe 0x493B8000#32 0x493B8000#32 = true ∧ between fTenth fTen fTenth = true ∧ between fTenth fTen fTen = true ∧
    between f20 f20000 f20 = true ∧ between f20 f20000 f20000 = true := by decide +kernel

/-- The hypotheses of EnvelopeSettersStoreTheClampedValue, FilterSettersStoreTheClampedValue, SetDetuneStoresDetuneAndLayout,
SetWaveformStoresTheSelector and UnisonAndDetuneCommute, for each clause: a finite payload at each bound, payloads that are not
finite, the last selector accepted and the first rejected. -/
theorem witness_setters :
    isFinite 0#32 = true ∧ isFinite 0x80000000#32 = true ∧ isFinite 0x7F7FFFFF#32 = true ∧ isFinite 0x41A00000#32 = true ∧
    isFinite 0x41200000#32 = true ∧ isFinite Params.default.detuneMax = true ∧ isFinite 0x7F800000#32 = false ∧
    isFinite 0xFFC00000#32 = false ∧ (3 : Nat) ≤ 3 ∧ (3 : Nat) < 4 := by decide

theorem witness_SettersAreIdempotent :
    legalOn (instrOpcode (.setUnison 5)) .p = true ∧ (after (exec (.setUnison 5) State.reset)).isSome = true := by decide +kernel

theorem witness_LegalValuesArePreserved : Legal State.reset where
  params := witness_params_legal
  rate := by decide +kernel
  cfg := by unfold cfgLegal; decide +kernel
  shadow := by constructor <;> decide +kernel
  active := by constructor <;> decide +kernel
  pool := by decide
  voices := fun v hv => by
    obtain rfl : v = Voice.reset := List.eq_of_mem_replicate hv
    constructor <;> decide +kernel
  progress := ⟨fun h => absurd h (by decide), .inl rfl⟩
  output := fun f hf => absurd hf (by simp [State.reset, State.resetOf])

theorem witness_LayoutsArePreserved : LayoutsOk State.reset := by unfold LayoutsOk layoutOk; decide +kernel

theorem witness_PoolCoherenceIsPreserved : PoolOk State.reset ∧ PoolOk twoVoices := by
  constructor
  · unfold PoolOk coherent; decide +kernel
  · unfold PoolOk coherent; decide +kernel

/-- The next step exists at the state of each invariant (R181): the invariants' other hypothesis is met. -/
theorem witness_invariant_step : (after (step (withC 0x4 State.reset))).isSome = true := by decide +kernel

theorem witness_ResetMeetsTheInvariants : ParamsLegal .default ∧ audioRate .default = true :=
  ⟨witness_params_legal, by decide +kernel⟩

/-- The first address after each window (§2.9). -/
theorem witness_UnmappedAddressesReadZero :
    [0x4, 0x010C, 0x0188, 0x020C, 0x0288, 0x1100, 0x11000, 0xFFFFFFFF].map (memRead State.reset) = List.replicate 8 0#32 := by
  decide +kernel

theorem witness_RportReadsConfigBanksAndTables :
    ParamsLegal State.reset.params ∧ State.reset.active.ratio.length = State.reset.params.unisonMax ∧
    State.reset.shadow.ratio.length = State.reset.params.unisonMax ∧ 7 < State.reset.params.unisonMax ∧
    1023 < State.reset.params.tableLen := ⟨witness_params_legal, by decide, by decide, by decide, by decide⟩

theorem witness_RportReadsEveryVoiceRegister :
    ParamsLegal State.reset.params ∧ State.reset.voices.length = State.reset.params.poolSize ∧
    State.reset.voices[15]? = some Voice.reset ∧ Voice.reset.note < 256 :=
  ⟨witness_params_legal, by decide, by decide, by decide⟩

theorem witness_BlockWordsPackTheirFields :
    ParamsLegal State.reset.params ∧ State.reset.voices.length = State.reset.params.poolSize ∧
    State.reset.params = .default := ⟨witness_params_legal, by decide, rfl⟩

theorem witness_ResetState : ParamsLegal .default ∧ 1023 < Params.default.tableLen := ⟨witness_params_legal, by decide⟩

theorem witness_ReadsChangeNothing :
    let s := { twoVoices with controlScript := [.read 3], turns := [.control] }
    let u := { twoVoices with hostScript := [.read 3], turns := [.host] }
    nextAgent s = .control ∧ s.controlScript = [.read 3] ∧ nextAgent u = .host ∧ u.hostScript = [.read 3] := by decide

end Sys2Proof.Machine.Tests
end

section
/-! PROOFS. The statements of `30_encoding.md`: decoding and encoding, and RENDER. The idea of all of them: the mask of R64 is a
word packed from one mask per field, so a masked word is compared field by field. -/

namespace Sys2Proof.Proofs.Encoding

open Sys2Proof Sys2Proof.Machine Sys2Proof.Laws

/-! ### Which fields a command uses -/

/-- The commands with an operand in `A8` (R63). -/
def usesA8 (o : Opcode) : Bool := o ∈ [.noteOn, .noteOff, .setWaveform]

/-- The commands with an operand in `U16` (R63). -/
def usesU16 (o : Opcode) : Bool := o ∈ [.prepare, .render, .setUnison]

/-- The commands with an operand in `F32` (R63). -/
def usesF32 (o : Opcode) : Bool := o ∉ [.nop, .render, .setUnison, .setWaveform]

/-- The mask of every field the command does not use, with the mask `m` on the opcode byte. -/
def unusedMask (m : Byte) (o : Opcode) : Word64 :=
  packWord m (if usesA8 o then 0 else 0xFF) (if usesU16 o then 0 else 0xFFFF) (if usesF32 o then 0 else 0xFFFFFFFF)

theorem matchMask_eq_unusedMask (o : Opcode) : matchMask o = unusedMask 0xFF o := by cases o <;> decide

theorem reservedMask_eq_unusedMask (o : Opcode) : reservedMask o = unusedMask 0 o := by cases o <;> decide

/-- Two packed words are equal exactly where their fields are. -/
theorem packWord_inj {o a o' a' : Byte} {u u' : BitVec 16} {x x' : F32} :
    packWord o a u x = packWord o' a' u' x' ↔ o = o' ∧ a = a' ∧ u = u' ∧ x = x' := by
  constructor
  · intro h
    exact ⟨by simpa using congrArg opcField h, by simpa using congrArg a8Field h, by simpa using congrArg u16Field h,
      by simpa using congrArg f32Field h⟩
  · rintro ⟨rfl, rfl, rfl, rfl⟩
    rfl

/-- A word under a packed mask, field by field. -/
theorem and_packWord_eq_iff (w : Word64) (m ma b : Byte) (mu : BitVec 16) (mx : F32) :
    w &&& packWord m ma mu mx = packWord b 0 0 0 ↔
      opcField w &&& m = b ∧ a8Field w &&& ma = 0 ∧ u16Field w &&& mu = 0 ∧ f32Field w &&& mx = 0 := by
  conv_lhs => rw [← packWord_fields w, packWord_and]
  exact packWord_inj

/-- A field under the mask of the reserved fields is 0 exactly where it is used or 0. -/
theorem and_fieldMask_eq_zero_iff {n : Nat} (used : Bool) (x : BitVec n) :
    x &&& (if used then 0 else BitVec.allOnes n) = 0 ↔ (used = false → x = 0) := by
  cases used <;> simp

/-- Every field the command does not use is 0 (R64). -/
def unusedFieldsZero (o : Opcode) (w : Word64) : Prop :=
  (usesA8 o = false → a8Field w = 0) ∧ (usesU16 o = false → u16Field w = 0) ∧ (usesF32 o = false → f32Field w = 0)

theorem and_unusedMask_eq_iff (w : Word64) (m b : Byte) (o : Opcode) :
    w &&& unusedMask m o = packWord b 0 0 0 ↔ opcField w &&& m = b ∧ unusedFieldsZero o w :=
  (and_packWord_eq_iff ..).trans <| and_congr_right' <|
    and_congr (and_fieldMask_eq_zero_iff _ _) (and_congr (and_fieldMask_eq_zero_iff _ _) (and_fieldMask_eq_zero_iff _ _))

/-- The check of R68. -/
theorem and_reservedMask_eq_zero_iff (o : Opcode) (w : Word64) : w &&& reservedMask o = 0 ↔ unusedFieldsZero o w := by
  have h := and_unusedMask_eq_iff w 0 0 o
  rw [← reservedMask_eq_unusedMask] at h
  exact h.trans (and_iff_right BitVec.and_zero)

/-- The check of R64: its mask asks no more than that of R68, once the opcode byte is the command's. -/
theorem and_matchMask_eq_iff (o : Opcode) (w : Word64) :
    w &&& matchMask o = (opcField w).setWidth 64 ↔ unusedFieldsZero o w := by
  have hb : (opcField w).setWidth 64 = packWord (opcField w) 0 0 0 := by
    have hlt := (opcField w).isLt
    apply BitVec.eq_of_toNat_eq
    rw [packWord_toNat, BitVec.toNat_setWidth, Nat.mod_eq_of_lt (by omega)]
    rfl
  rw [matchMask_eq_unusedMask, hb, and_unusedMask_eq_iff]
  exact and_iff_right BitVec.and_allOnes

/-! ### The terms the decoder builds -/

@[simp] theorem instrOpcode_assemble (o : Opcode) (a : Byte) (u : BitVec 16) (x : F32) :
    instrOpcode (assemble o a u x) = o := by
  cases o <;> rfl

/-- An operand read from a field fits it. -/
theorem assemble_wf (o : Opcode) (a : Byte) (u : BitVec 16) (x : F32) : (assemble o a u x).wf = true := by
  have ha : a.toNat < 256 := a.isLt
  have hu : u.toNat < 65536 := u.isLt
  cases o <;> simp [assemble, Instr.wf, fitsA8, fitsU16, ha, hu]

/-- Encoding keeps the fields the command uses and puts 0 in the others. -/
theorem encode_assemble (o : Opcode) (a : Byte) (u : BitVec 16) (x : F32) :
    encode (assemble o a u x) = packWord (opcodeByte o) (if usesA8 o then a else 0) (if usesU16 o then u else 0)
      (if usesF32 o then x else 0) := by
  cases o <;> simp [assemble, encode, usesA8, usesU16, usesF32]

/-- A word with the command's opcode byte and 0 in the unused fields is the encoding of what it decodes to. -/
theorem encode_assemble_fields {o : Opcode} {w : Word64} (hb : opcodeByte o = opcField w) (h : unusedFieldsZero o w) :
    encode (assemble o (a8Field w) (u16Field w) (f32Field w)) = w := by
  obtain ⟨ha, hu, hx⟩ := h
  have keep {n : Nat} {used : Bool} {y : BitVec n} (hy : used = false → y = 0) : (if used then y else 0) = y := by
    cases used
    · exact (hy rfl).symm
    · rfl
  rw [encode_assemble, keep ha, keep hu, keep hx, hb, packWord_fields]

/-- The fields of a well-formed command's word are its operands. -/
theorem assemble_encode {i : Instr} (h : i.wf = true) :
    assemble (instrOpcode i) (a8Field (encode i)) (u16Field (encode i)) (f32Field (encode i)) = i := by
  cases i <;> simp [assemble, instrOpcode, encode, Instr.wf, fitsA8, fitsU16] at h ⊢ <;> exact h

/-- The reserved fields of a command's word are 0, and its low byte is the opcode: one entry per command. -/
theorem encodeShape : ∀ i : Instr, EncodeShape.Statement i
  | .nop => EncodeShape.nop
  | .prepare fs mb => EncodeShape.prepare fs mb
  | .noteOn n v => EncodeShape.noteOn n v
  | .noteOff n v => EncodeShape.noteOff n v
  | .render n => EncodeShape.render n
  | .setAttack x => EncodeShape.setAttack x
  | .setDecay x => EncodeShape.setDecay x
  | .setSustain x => EncodeShape.setSustain x
  | .setRelease x => EncodeShape.setRelease x
  | .setCutoff x => EncodeShape.setCutoff x
  | .setResonance x => EncodeShape.setResonance x
  | .setLfoRate x => EncodeShape.setLfoRate x
  | .setLfoDepth x => EncodeShape.setLfoDepth x
  | .setUnison n => EncodeShape.setUnison n
  | .setDetune x => EncodeShape.setDetune x
  | .setWaveform n => EncodeShape.setWaveform n
  | .setVolume x => EncodeShape.setVolume x

/-! ### What the decoder answers -/

/-- R66: the reserved bytes are those no row of R63 has. -/
theorem opcodeOfByte_eq_none_iff (b : Byte) :
    opcodeOfByte b = none ↔ (0x05 ≤ b.toNat ∧ b.toNat ≤ 0x0F) ∨ 0x1C ≤ b.toNat := by
  have hb := b.isLt
  simp [opcodeOfByte, List.find?_eq_none, allOpcodes, opcodeByte, ← BitVec.toNat_inj]
  omega

/-- R65: NOP and the opcodes up to 0x04 are legal on the C-port, NOP and the opcodes from 0x10 on the P-port. -/
theorem legalOn_c_iff (o : Opcode) : legalOn o .c = true ↔ (opcodeByte o).toNat ≤ 0x04 := by cases o <;> decide

theorem legalOn_p_iff (o : Opcode) :
    legalOn o .p = true ↔ (opcodeByte o).toNat = 0 ∨ 0x10 ≤ (opcodeByte o).toNat := by cases o <;> decide

/-- A word with a reserved opcode byte. -/
theorem decode_of_none {port : Port} {w : Word64} (h : opcodeOfByte (opcField w) = none) :
    decode port w = .error .reservedOpcode := by
  simp [decode, h]

/-- A word with a command's opcode byte: the port is checked, then the reserved fields (R68). -/
theorem decode_of_opcodeByte {port : Port} {w : Word64} {o : Opcode} (h : opcField w = opcodeByte o) :
    (legalOn o port = false ∧ decode port w = .error .wrongPort) ∨
    (legalOn o port = true ∧ ¬ unusedFieldsZero o w ∧ decode port w = .error .reservedField) ∨
    (legalOn o port = true ∧ unusedFieldsZero o w ∧
      decode port w = .ok (assemble o (a8Field w) (u16Field w) (f32Field w))) := by
  have hmask := and_reservedMask_eq_zero_iff o w
  cases hl : legalOn o port with
  | false => exact .inl ⟨rfl, by simp [decode, h, hl]⟩
  | true =>
    by_cases hz : unusedFieldsZero o w
    · exact .inr (.inr ⟨rfl, hz, by simp [decode, h, hl, hmask.2 hz]⟩)
    · exact .inr (.inl ⟨rfl, hz, by simpa [decode, h, hl] using mt hmask.1 hz⟩)

theorem decode_reservedOpcode_iff (port : Port) (w : Word64) :
    decode port w = .error .reservedOpcode ↔ opcodeOfByte (opcField w) = none := by
  refine ⟨fun h => ?_, decode_of_none⟩
  cases ho : opcodeOfByte (opcField w) with
  | none => rfl
  | some o =>
    have hb := (opcodeByte_of_opcodeOfByte ho).symm
    rcases decode_of_opcodeByte (port := port) hb with ⟨_, hd⟩ | ⟨_, _, hd⟩ | ⟨_, _, hd⟩ <;> simp [hd] at h

theorem decode_wrongPort_iff {port : Port} {w : Word64} {o : Opcode} (h : opcField w = opcodeByte o) :
    decode port w = .error .wrongPort ↔ legalOn o port = false := by
  rcases decode_of_opcodeByte (port := port) h with ⟨hl, hd⟩ | ⟨hl, _, hd⟩ | ⟨hl, _, hd⟩ <;> simp [hl, hd]

/-- A word decodes to `i` exactly where it has the opcode byte of `i`, on a port `i` is legal on, 0 in the unused fields,
and the operands of `i` in the others. -/
theorem decode_eq_ok_iff (port : Port) (w : Word64) (i : Instr) :
    decode port w = .ok i ↔ legalOn (instrOpcode i) port = true ∧ opcField w = opcodeByte (instrOpcode i) ∧
      unusedFieldsZero (instrOpcode i) w ∧
      assemble (instrOpcode i) (a8Field w) (u16Field w) (f32Field w) = i := by
  constructor
  · intro h
    cases ho : opcodeOfByte (opcField w) with
    | none => simp [decode_of_none ho] at h
    | some o =>
      have hb := (opcodeByte_of_opcodeOfByte ho).symm
      rcases decode_of_opcodeByte (port := port) hb with ⟨_, hd⟩ | ⟨_, _, hd⟩ | ⟨hl, hz, hd⟩
      · simp [hd] at h
      · simp [hd] at h
      · obtain rfl : assemble o (a8Field w) (u16Field w) (f32Field w) = i := by simpa [hd] using h
        simpa using ⟨hl, hb, hz⟩
  · rintro ⟨hl, hb, hz, ha⟩
    rcases decode_of_opcodeByte (port := port) hb with ⟨hl', _⟩ | ⟨_, hz', _⟩ | ⟨_, _, hd⟩
    · simp [hl] at hl'
    · exact absurd hz hz'
    · rw [hd, ha]

/-- R182: a word that does not decode changes nothing. -/
theorem runWord_of_error {port : Port} {w : Word64} {r : Rejection} (h : decode port w = .error r) (s : State) :
    runWord port w s = .next s := by
  simp [runWord, h, reject]

/-! ### Encoding and decoding -/

/-- Settles O1: the word of a command has its opcode byte and 0 in the reserved fields (`encodeShape`), so it passes every check,
and the operands come back since they fit their fields. -/
theorem decodeOfEncodeIsTheCommand : Obligations.DecodeOfEncodeIsTheCommand := by
  intro i port hwf hlegal
  obtain ⟨hopc, hmask⟩ := encodeShape i
  exact (decode_eq_ok_iff port (encode i) i).2
    ⟨hlegal, hopc, (and_reservedMask_eq_zero_iff _ _).1 hmask, assemble_encode hwf⟩

/-- Settles O2: the decoder assembles its answer from the fields, and encoding puts the same fields back, the unused ones being
0 in the word. -/
theorem decodedWordIsItsEncoding : Obligations.DecodedWordIsItsEncoding := by
  intro port w i h
  obtain ⟨hlegal, hopc, hzero, hasm⟩ := (decode_eq_ok_iff port w i).1 h
  have hwf := assemble_wf (instrOpcode i) (a8Field w) (u16Field w) (f32Field w)
  have henc := encode_assemble_fields hopc.symm hzero
  rw [hasm] at hwf henc
  exact ⟨hwf, hlegal, henc⟩

/-- Settles O3: the opcode check comes first, and fails exactly on the bytes that no row of R63 has. -/
theorem reservedOpcodesRejected : Obligations.ReservedOpcodesRejected := by
  intro port w
  exact ⟨(decode_reservedOpcode_iff port w).trans (opcodeOfByte_eq_none_iff _), runWord_of_error⟩

/-- Settles O4: a byte in one of the three ranges is a command's (it is not reserved), and its range says on which ports that
command is legal. -/
theorem wrongPortRejected : Obligations.WrongPortRejected := by
  intro w
  cases ho : opcodeOfByte (opcField w) with
  | none =>
    have hr := (opcodeOfByte_eq_none_iff _).1 ho
    refine ⟨fun _ => by omega, fun _ => by omega, fun h0 => ?_⟩
    simp [h0] at hr
  | some o =>
    have hb := (opcodeByte_of_opcodeOfByte ho).symm
    have hc := legalOn_c_iff o
    have hp := legalOn_p_iff o
    rw [← hb] at hc hp
    simp only [ne_eq, decode_wrongPort_iff hb, Bool.not_eq_false]
    refine ⟨fun h => ?_, fun h => ?_, fun h => ?_⟩
    · have hl : legalOn o .p = false := Bool.eq_false_iff.2 fun hl => by have := hp.1 hl; omega
      exact ⟨hl, runWord_of_error ((decode_wrongPort_iff hb).2 hl), hc.2 h.2⟩
    · have hl : legalOn o .c = false := Bool.eq_false_iff.2 fun hl => by have := hc.1 hl; omega
      exact ⟨hl, runWord_of_error ((decode_wrongPort_iff hb).2 hl), hp.2 (.inr h.1)⟩
    · exact ⟨hc.2 (by simp [h]), hp.2 (by simp [h])⟩

/-- Settles O5: each row is the opcode byte and the match mask of a command legal on the row's port (checked over the eighteen
rows); the mask then matches exactly where the reserved fields are 0. -/
theorem reservedFieldRejected : Obligations.ReservedFieldRejected := by
  intro row hrow
  obtain ⟨o, -, hlegal, hbyte, hmask⟩ :
      ∃ o ∈ allOpcodes, legalOn o row.1 = true ∧ row.2.1 = opcodeByte o ∧ row.2.2 = matchMask o := by
    revert row
    decide
  intro w hw
  have hopc : opcField w = opcodeByte o := hw.trans hbyte
  rw [← hw, hmask, ne_eq, and_matchMask_eq_iff]
  rcases decode_of_opcodeByte (port := row.1) hopc with ⟨hl, _⟩ | ⟨_, hz, hd⟩ | ⟨_, hz, hd⟩
  · simp [hlegal] at hl
  · exact ⟨fun h => absurd h hz, fun _ => ⟨hd, runWord_of_error hd⟩⟩
  · exact ⟨fun _ => ⟨_, hd⟩, fun h => absurd hz h⟩

/-- Settles O6, by evaluating the decoder and the encoder on the five words of R72. -/
theorem workedWordsDecode : Obligations.WorkedWordsDecode := by
  unfold Obligations.WorkedWordsDecode
  decide

/-! ### RENDER -/

/-- R63: the word of RENDER. -/
theorem carriedBy_render (n : Nat) : carriedBy (.render n) .c 0x04 0 n 0#32 := by
  intro q w
  rw [decode_eq_ok_iff]
  constructor
  · rintro ⟨hlegal, hopc, ⟨ha, -, hx⟩, hn⟩
    exact ⟨by simpa [instrOpcode, legalOn] using hlegal, hopc, by rw [ha rfl]; rfl, Instr.render.inj hn, hx rfl⟩
  · rintro ⟨rfl, hopc, ha, rfl, hx⟩
    exact ⟨rfl, hopc, ⟨fun _ => BitVec.eq_of_toNat_eq ha, nofun, fun _ => hx⟩, rfl⟩

theorem exec_render_valid {s : State} {n : Nat} (hprep : s.cfg.prepared = true) (hn : n ≤ s.cfg.maxBlock) :
    exec (.render n) s = .next { s with active := s.shadow, framesLeft := n } := by
  simp [exec, execRender, silentBlock, latch, hprep, hn]

theorem exec_render_silent {s : State} {n : Nat} (h : s.cfg.prepared = false ∨ s.cfg.maxBlock < n) :
    exec (.render n) s = .next { s with silentLeft := n } := by
  have hs : silentBlock n s = true := by simpa [silentBlock] using h
  simp [exec, execRender, hs, oweSilence]

/-- A step of a silent block emits one frame of `+0.0` (R158). -/
theorem step_silent {s : State} (ha : nextAgent s = .renderer) (hf : s.framesLeft = 0) (hs : 0 < s.silentLeft) :
    step s = .next (silentStep (takeTurn s)) := by
  simp [step, ha, agentStep, rendererStep, hf, hs]

/-- Settles O21: the word by its fields, the two blocks by the condition of R153, the silent frame by the renderer's step; an
unprepared `RENDER 0` is the silent block that owes nothing. -/
theorem renderLatchesOrEmitsSilence : Obligations.RenderLatchesOrEmitsSilence := by
  intro s n
  refine ⟨carriedBy_render n, exec_render_valid, exec_render_silent, step_silent, fun hprep h0 => ?_⟩
  rw [exec_render_silent (.inl hprep), ← h0]

end Sys2Proof.Proofs.Encoding
end

section
/-! PROOFS. The statements of `40_wavetable.md`: the table entries. The idea of both: every entry is `CR` of a rational of
magnitude at most 1, for the sine over `2^512` and for the other tables over the table length; rounding does not leave `[-1, 1]`,
and over a power of two nothing is rounded. -/

namespace Sys2Proof.Proofs.Wavetable

open Sys2Proof Sys2Proof.Machine Sys2Proof.Laws

/-! ### `CR` of a rational of magnitude at most 1 -/

theorem fVal_one : fVal fOne = (fUnit : Int) := by decide

theorem fVal_neg_one : fVal 0xBF800000#32 = -(fUnit : Int) := by decide

/-- An exact zero is positive, since a numerator of 0 is not negative. -/
@[simp] theorem fSign_crQuot (num : Int) (den : Nat) : fSign (crQuot num den) = decide (num < 0) := fSign_roundF ..

theorem fBits_crQuot (num : Int) (den : Nat) :
    fBits (crQuot num den) = min (roundMag (num.natAbs * fUnit) den) infBits := fBits_roundF ..

/-- Rounding a rational of magnitude at most 1 gives no more than the magnitude bits of `1.0`. -/
theorem fBits_crQuot_le_one {num : Int} {den : Nat} (hd : 0 < den) (h : num.natAbs ≤ den) :
    fBits (crQuot num den) ≤ fBits fOne := by
  have hround : roundMag (num.natAbs * fUnit) den ≤ fBits fOne := roundMag_le hd <|
    calc num.natAbs * fUnit ≤ den * fUnit := Nat.mul_le_mul_right _ h
      _ = magOf (fBits fOne) * den := by rw [mul_comm, ← fMag_one]; rfl
  exact (fBits_crQuot num den).trans_le ((min_le_left ..).trans hround)

/-- A rational of magnitude 1 is not rounded. -/
theorem fBits_crQuot_eq_one {num : Int} {den : Nat} (hd : 0 < den) (h : num.natAbs = den) :
    fBits (crQuot num den) = fBits fOne := by
  have hround : roundMag (num.natAbs * fUnit) den = fBits fOne :=
    roundMag_exact hd (by rw [h, mul_comm, ← fMag_one]; rfl)
  rw [fBits_crQuot, hround]
  decide

theorem isFinite_crQuot {num : Int} {den : Nat} (hd : 0 < den) (h : num.natAbs ≤ den) :
    isFinite (crQuot num den) = true :=
  isFinite_iff.2 ((fBits_crQuot_le_one hd h).trans_lt (by decide))

theorem crQuot_mem_unit {num : Int} {den : Nat} (hd : 0 < den) (h : num.natAbs ≤ den) :
    fLe 0xBF800000#32 (crQuot num den) = true ∧ fLe (crQuot num den) fOne = true := by
  have hnan := isFinite_not_nan (isFinite_crQuot hd h)
  have hmag : (fVal (crQuot num den)).natAbs ≤ fUnit := by
    rw [natAbs_fVal, ← fMag_one]
    exact fMag_le_iff.2 (fBits_crQuot_le_one hd h)
  rw [fLe_iff, fLe_iff, fVal_neg_one, fVal_one]
  exact ⟨⟨by decide, hnan, by omega⟩, hnan, isNaN_one, by omega⟩

/-- Over a power of two up to 2^14 nothing is rounded: the magnitude is the numerator times `2^(149-k)` units. -/
theorem fMag_crQuot_pow_two {num : Int} {k : Nat} (hk : k ≤ 14) (h : num.natAbs ≤ 2 ^ k) :
    2 ^ k * fMag (crQuot num (2 ^ k)) = num.natAbs * fUnit := by
  have hsmall : num.natAbs < 2 ^ 24 := h.trans_lt (Nat.pow_lt_pow_right (by norm_num) (by omega))
  obtain ⟨b, hb⟩ := exists_magOf (e := 149 - k) hsmall
  have hexact : num.natAbs * fUnit = magOf b * 2 ^ k := by
    rw [hb, mul_assoc, ← pow_add, Nat.sub_add_cancel (by omega)]; rfl
  have hround : roundMag (num.natAbs * fUnit) (2 ^ k) = b := roundMag_exact (Nat.two_pow_pos k) hexact
  have hbits : fBits (crQuot num (2 ^ k)) = min b infBits := by rw [fBits_crQuot, hround]
  have hfin := isFinite_iff.1 (isFinite_crQuot (Nat.two_pow_pos k) h)
  have hmag : fMag (crQuot num (2 ^ k)) = magOf b := congrArg magOf (by omega)
  rw [hmag, hexact, mul_comm]

/-- The value with its sign. -/
theorem fVal_crQuot_pow_two {num : Int} {k : Nat} (hk : k ≤ 14) (h : num.natAbs ≤ 2 ^ k) :
    (2 ^ k : Int) * fVal (crQuot num (2 ^ k)) = num * (2 ^ 149 : Int) := by
  have hmag : (2 ^ k : Int) * (fMag (crQuot num (2 ^ k)) : Int) = (num.natAbs : Int) * 2 ^ 149 := by
    exact_mod_cast fMag_crQuot_pow_two hk h
  by_cases hneg : num < 0
  · rw [fVal_neg ((fSign_crQuot ..).trans (decide_eq_true hneg)), mul_neg, hmag, ← neg_mul,
      Int.ofNat_natAbs_of_nonpos hneg.le, neg_neg]
  · rw [fVal_pos ((fSign_crQuot ..).trans (decide_eq_false hneg)), hmag, Int.natAbs_of_nonneg (not_lt.1 hneg)]

theorem crQuot_ne_neg_zero {num : Int} {k : Nat} (hk : k ≤ 14) (h : num.natAbs ≤ 2 ^ k) :
    crQuot num (2 ^ k) ≠ 0x80000000#32 := by
  intro hz
  have hneg : num < 0 := by
    have hsign := fSign_crQuot num (2 ^ k)
    rw [hz] at hsign
    exact of_decide_eq_true hsign.symm
  have hval := fVal_crQuot_pow_two hk h
  rw [hz, show fVal 0x80000000#32 = 0 by decide] at hval
  omega

/-! ### Every entry is such a `CR` -/

theorem crQuot_self {L : Nat} (hL : 0 < L) : crQuot L L = fOne :=
  f32_ext (by simp) (fBits_crQuot_eq_one hL (Int.natAbs_natCast L))

theorem crQuot_neg_self {L : Nat} (hL : 0 < L) : crQuot (-(L : Int)) L = 0xBF800000#32 := by
  have hneg : -(L : Int) < 0 := neg_neg_of_pos (Int.natCast_pos.2 hL)
  have habs : (-(L : Int)).natAbs = L := (Int.natAbs_neg _).trans (Int.natAbs_natCast L)
  exact f32_ext ((fSign_crQuot ..).trans (decide_eq_true hneg)) (fBits_crQuot_eq_one hL habs)

/-- R78: the condition of the model is the one of the rule, and both values are exact. -/
theorem fVal_squareEntry {L : Nat} (i : Nat) (hL : 2 ∣ L) :
    fVal (squareEntry L i) = if 2 * (i : Int) < L then (2 ^ 149 : Int) else -(2 ^ 149 : Int) := by
  have hhalf : i < L / 2 ↔ 2 * (i : Int) < L := (Nat.lt_div_iff_mul_lt' hL i).trans (by omega)
  simp only [squareEntry, hhalf]
  split_ifs
  · exact fVal_one
  · exact fVal_neg_one

/-- The triangle of R79, times the table length. -/
def triangleNum (L i : Nat) : Int :=
  if 4 * (i : Int) < L then 4 * i else if 4 * (i : Int) < 3 * L then 2 * L - 4 * i else 4 * i - 4 * L

theorem triangleEntry_eq_crQuot {L : Nat} (i : Nat) (hL : 4 ∣ L) : triangleEntry L i = crQuot (triangleNum L i) L := by
  have hrise : i < L / 4 ↔ 4 * (i : Int) < L := (Nat.lt_div_iff_mul_lt' hL i).trans (by omega)
  have hfall : i < 3 * L / 4 ↔ 4 * (i : Int) < 3 * L := (Nat.lt_div_iff_mul_lt' (hL.mul_left 3) i).trans (by omega)
  simp only [triangleEntry, triangleNum, hrise, hfall]
  split_ifs <;> rfl

theorem natAbs_triangleNum_le {L i : Nat} (hi : i < L) : (triangleNum L i).natAbs ≤ L := by
  unfold triangleNum
  split_ifs <;> omega

theorem fixOne_pos : 0 < fixOne := pow_pos two_pos 512

theorem natAbs_fixUnit_le (v : Int) : (fixUnit v).natAbs ≤ fixOne := by
  unfold fixUnit
  omega

/-- The fixed-point value is rounded as the quotient by its unit. -/
theorem crFix_eq_crQuot (v : Int) : crFix v = crQuot v fixOne := rfl

theorem sineEntry_eq_crQuot (L i : Nat) : ∃ v : Int, v.natAbs ≤ fixOne ∧ sineEntry L i = crQuot v fixOne := by
  unfold sineEntry
  split <;> exact ⟨_, natAbs_fixUnit_le _, crFix_eq_crQuot _⟩

/-- The square, triangle and sawtooth entries have a numerator of at most the table length. -/
theorem tableEntry_eq_crQuot {L i : Nat} {w : Waveform} (hw : w ≠ .sine) (hL : 4 ∣ L) (hi : i < L) :
    ∃ num : Int, num.natAbs ≤ L ∧ tableEntry L w i = crQuot num L := by
  have hL0 : 0 < L := by omega
  cases w with
  | sine => exact absurd rfl hw
  | square =>
    by_cases hhalf : i < L / 2
    · exact ⟨L, by omega, by rw [crQuot_self hL0]; exact if_pos hhalf⟩
    · exact ⟨-L, by omega, by rw [crQuot_neg_self hL0]; exact if_neg hhalf⟩
  | triangle => exact ⟨_, natAbs_triangleNum_le hi, triangleEntry_eq_crQuot i hL⟩
  | sawtooth => exact ⟨2 * (i : Int) - L, by omega, rfl⟩

theorem four_dvd_pow_two {k : Nat} (hk : 2 ≤ k) : 4 ∣ 2 ^ k := pow_dvd_pow 2 hk

/-! ### The obligations -/

/-- Settles O38: every entry is `CR` of a rational of magnitude at most 1, the sine's because `fixUnit` limits it. -/
theorem tableEntriesAreBounded : Obligations.TableEntriesAreBounded := by
  intro k w i hk _ hi
  by_cases hw : w = .sine
  · subst hw
    obtain ⟨v, hv, hentry⟩ := sineEntry_eq_crQuot (2 ^ k) i
    rw [show tableEntry (2 ^ k) .sine i = _ from hentry]
    exact crQuot_mem_unit fixOne_pos hv
  · obtain ⟨num, hnum, hentry⟩ := tableEntry_eq_crQuot hw (four_dvd_pow_two hk) hi
    rw [hentry]
    exact crQuot_mem_unit (Nat.two_pow_pos k) hnum

/-- Settles O39: the three tables are quotients by the table length, a power of two, so each holds its numerator exactly. -/
theorem linearTablesAreExact : Obligations.LinearTablesAreExact := by
  intro k i hk hk14 hi L unit
  have h4 := four_dvd_pow_two hk
  have hcast : ((2 ^ k : Nat) : Int) = L := Nat.cast_pow 2 k
  refine ⟨fun w hw => ?_, ?_, ?_, ?_⟩
  · obtain ⟨num, hnum, hentry⟩ := tableEntry_eq_crQuot hw h4 hi
    rw [hentry]
    exact ⟨isFinite_crQuot (Nat.two_pow_pos k) hnum, crQuot_ne_neg_zero hk14 hnum⟩
  · rw [← hcast]
    exact fVal_squareEntry i (dvd_pow_self 2 (by omega))
  · have hval := fVal_crQuot_pow_two hk14 (natAbs_triangleNum_le hi)
    rw [← triangleEntry_eq_crQuot i h4, triangleNum, hcast] at hval
    exact hval
  · have hval := fVal_crQuot_pow_two (num := 2 * (i : Int) - (2 ^ k : Nat)) hk14 (by omega)
    rw [hcast] at hval
    exact hval

end Sys2Proof.Proofs.Wavetable
end

section
/-! PROOFS. The statements of `41_oscillator.md`: the phase increment, the unison layout and the readout. The idea of the
increment: a factor `2^q` adds `q` to the exponent field and rounds nothing away, so an increment is the one of its semitone with
the exponent moved, and the twelve semitones of an octave lie farther apart than a rounding reaches. The idea of the other two: a
whole number bounds every value on the way, and rounding does not pass it. -/

namespace Sys2Proof.Proofs.Oscillator

open Sys2Proof Sys2Proof.Machine Sys2Proof.Laws Sys2Proof.Proofs.Wavetable

/-! ### Rounding against a magnitude -/

theorem fBits_roundF_le {neg : Bool} {num den b : Nat} (hd : 0 < den) (h : num ≤ magOf b * den) :
    fBits (roundF neg num den) ≤ b :=
  (fBits_roundF ..).trans_le ((min_le_left ..).trans (roundMag_le hd h))

theorem le_fBits_roundF {neg : Bool} {num den b : Nat} (hd : 0 < den) (hb : b ≤ infBits) (h : magOf b * den ≤ num) :
    b ≤ fBits (roundF neg num den) :=
  (le_min (le_roundMag hd h) hb).trans_eq (fBits_roundF ..).symm

/-- A whole number below `2^24` is a magnitude. -/
theorem exists_magOf_whole {m : Nat} (hm : m < 2 ^ 24) : ∃ b < infBits, magOf b = m * fUnit := by
  obtain ⟨b, hb⟩ := exists_magOf (e := 149) hm
  refine ⟨b, magOf_lt_iff.1 ?_, hb⟩
  calc magOf b = m * 2 ^ 149 := hb
    _ < 2 ^ 24 * 2 ^ 149 := Nat.mul_lt_mul_of_pos_right hm (Nat.two_pow_pos _)
    _ < magOf infBits := by decide

/-- A whole number below `2^24` is not rounded. -/
theorem roundF_whole {neg : Bool} {num den m : Nat} (hd : 0 < den) (hm : m < 2 ^ 24) (h : num = m * fUnit * den) :
    isFinite (roundF neg num den) = true ∧ fMag (roundF neg num den) = m * fUnit := by
  obtain ⟨b, hb, hmag⟩ := exists_magOf_whole hm
  have hbits : fBits (roundF neg num den) = b := by
    rw [fBits_roundF, roundMag_exact hd (by rw [hmag, h]), min_eq_left hb.le]
  exact ⟨isFinite_iff.2 (hbits.trans_lt hb), (congrArg magOf hbits).trans hmag⟩

/-- A value of at least one unit of 2^-149 rounds to a positive one. -/
theorem roundF_positive {num den : Nat} (hd : 0 < den) (h : den ≤ num) : fLt 0#32 (roundF false num den) = true := by
  have hbits : 1 ≤ fBits (roundF false num den) := le_fBits_roundF hd (by decide) (by simpa [magOf] using h)
  rw [fLt_iff, fVal_lt_iff_of_pos fSign_zero (fSign_roundF ..), fBits_zero]
  exact ⟨isNaN_zero, isNaN_roundF .., hbits⟩

@[simp] theorem isFinite_fZero (neg : Bool) : isFinite (fZero neg) = true := by cases neg <;> decide

@[simp] theorem fMag_fZero (neg : Bool) : fMag (fZero neg) = 0 := by simp [fMag]

/-- A value whose magnitude is at most the whole number `n`. -/
def AtMost (n : Nat) (x : F32) : Prop := isFinite x = true ∧ fMag x ≤ n * fUnit

/-- Rounding does not pass a whole number. -/
theorem atMost_roundF {neg : Bool} {num den n : Nat} (hd : 0 < den) (hn : n < 2 ^ 24) (h : num ≤ n * fUnit * den) :
    AtMost n (roundF neg num den) := by
  obtain ⟨b, hb, hmag⟩ := exists_magOf_whole hn
  have hbits : fBits (roundF neg num den) ≤ b := fBits_roundF_le hd (h.trans_eq (by rw [hmag]))
  exact ⟨isFinite_iff.2 (hbits.trans_lt hb), (magOf_le_iff.2 hbits).trans_eq hmag⟩

theorem atMost_fAdd {x y : F32} {m n : Nat} (hx : AtMost m x) (hy : AtMost n y) (h : m + n < 2 ^ 24) :
    AtMost (m + n) (fAdd x y) := by
  obtain ⟨fx, hx⟩ := hx
  obtain ⟨fy, hy⟩ := hy
  rw [fAdd_finite fx fy]
  split_ifs with h0
  · exact ⟨isFinite_fZero _, by simp⟩
  · refine atMost_roundF one_pos h ?_
    calc (fVal x + fVal y).natAbs ≤ fMag x + fMag y := by
          rw [← natAbs_fVal x, ← natAbs_fVal y]; exact Int.natAbs_add_le _ _
      _ ≤ (m + n) * fUnit * 1 := by rw [mul_one, add_mul]; exact add_le_add hx hy

theorem atMost_iff_unit {x : F32} : AtMost 1 x ↔ fLe 0xBF800000#32 x = true ∧ fLe x fOne = true := by
  have habs := natAbs_fVal x
  rw [AtMost, fLe_iff, fLe_iff, fVal_neg_one, fVal_one, one_mul]
  constructor
  · rintro ⟨hfin, hmag⟩
    exact ⟨⟨by decide, isFinite_not_nan hfin, by omega⟩, isFinite_not_nan hfin, isNaN_one, by omega⟩
  · rintro ⟨⟨-, -, hlo⟩, -, -, hhi⟩
    have hmag : fMag x ≤ fMag fOne := by rw [fMag_one]; omega
    exact ⟨isFinite_iff.2 ((fMag_le_iff.1 hmag).trans_lt (by decide)), hmag.trans_eq fMag_one⟩

/-! ### Conversion of an integer -/

@[simp] theorem fSign_fOfInt (k : Int) : fSign (fOfInt k) = decide (k < 0) := fSign_roundF ..

theorem isFinite_fOfInt {k : Int} (hk : k.natAbs < 2 ^ 24) : isFinite (fOfInt k) = true :=
  (roundF_whole one_pos hk (mul_one _).symm).1

theorem fMag_fOfInt {k : Int} (hk : k.natAbs < 2 ^ 24) : fMag (fOfInt k) = k.natAbs * fUnit :=
  (roundF_whole one_pos hk (mul_one _).symm).2

theorem fMag_fOfInt_pos {n : Nat} (h0 : 0 < n) (hn : n < 2 ^ 24) : 0 < fMag (fOfInt n) := by
  rw [fMag_fOfInt (by simpa using hn), Int.natAbs_natCast]
  exact Nat.mul_pos h0 fUnit_pos

theorem fOfInt_one : fOfInt 1 = fOne := by decide

/-! ### Products with clear sign bits, and octaves -/

theorem eq_fInf {x : F32} (hs : fSign x = false) (h : infBits ≤ fBits x) (hx : isNaN x = false) : x = fInf false :=
  f32_ext (by rw [hs, fSign_fInf]) (by rw [fBits_fInf]; exact le_antisymm (isNaN_false_iff.1 hx) h)

theorem fMul_comm {a b : F32} (ha : isNaN a = false) (hb : isFinite b = true) (h0 : fMag b ≠ 0) : fMul a b = fMul b a := by
  rcases finite_or_inf ha with fa | ia
  · rw [fMul_finite fa hb, fMul_finite hb fa, mul_comm, bne_comm]
  · have ha0 : fMag a ≠ 0 := by rw [Ne, fMag_eq_zero, isInf_iff.1 ia]; decide
    simp [fMul, ha, isFinite_not_nan hb, ia, h0, ha0, bne_comm]

/-- The infinity times a positive finite value. -/
theorem fInf_mul {b : F32} (hb : isFinite b = true) (sb : fSign b = false) (h0 : fMag b ≠ 0) :
    fMul (fInf false) b = fInf false := by
  have hnan : isNaN (fInf false) = false := by decide
  have hinf : isInf (fInf false) = true := by decide
  have hmag : fMag (fInf false) ≠ 0 := by decide
  simp [fMul, hnan, hinf, hmag, isFinite_not_nan hb, h0, sb]

/-- A value of at least `1.0` as a factor does not make a value smaller. -/
theorem fMul_grows {a b : F32} (ha : PosVal a) (hb : isFinite b = true) (sb : fSign b = false) (h1 : fUnit ≤ fMag b) :
    PosVal (fMul a b) ∧ fBits a ≤ fBits (fMul a b) := by
  obtain ⟨hnan, hs⟩ := ha
  rcases finite_or_inf hnan with fa | ia
  · rw [fMul_pos fa hb hs sb]
    exact ⟨posVal_roundF .., le_fBits_roundF fUnit_pos (isNaN_false_iff.1 hnan) (Nat.mul_le_mul_left _ h1)⟩
  · have h0 : fMag b ≠ 0 := by have := fUnit_pos; omega
    rw [eq_fInf hs (isInf_iff.1 ia).ge hnan, fInf_mul hb sb h0]
    exact ⟨by unfold PosVal; decide, le_rfl⟩

/-- `k` more in the exponent field is a factor `2^k`. -/
theorem magOf_add_octaves {b : Nat} (k : Nat) (hb : 2 ^ 23 ≤ b) : magOf (b + k * 2 ^ 23) = magOf b * 2 ^ k := by
  obtain ⟨e, m, rfl, hm, h⟩ := exists_split b
  have hnorm : 2 ^ 23 ≤ m := by omega
  rw [show e * 2 ^ 23 + m + k * 2 ^ 23 = (e + k) * 2 ^ 23 + m by ring, magOf_split _ _ hm.le (.inr hnorm),
    magOf_split _ _ hm.le h, pow_add, mul_assoc]

/-- `2^(k-6)`, the octaves of the notes 0 to 127: the pattern of R85. -/
theorem fPow2_pattern : ∀ k < 11, fPow2 ((k : Nat) - 6) = BitVec.ofInt 32 ((127 + ((k : Nat) - 6)) * 2 ^ 23) := by decide

theorem fPow2_octave : ∀ k < 11, isFinite (fPow2 ((k : Nat) - 6)) = true ∧ fSign (fPow2 ((k : Nat) - 6)) = false ∧
    fMag (fPow2 ((k : Nat) - 6)) = 2 ^ (143 + k) := by decide

/-- The value with the magnitude bits `b`, an infinity from `infBits` on. -/
def satF (b : Nat) : F32 := roundF false (magOf b) 1

@[simp] theorem fSign_satF (b : Nat) : fSign (satF b) = false := fSign_roundF ..

@[simp] theorem isNaN_satF (b : Nat) : isNaN (satF b) = false := isNaN_roundF ..

theorem fBits_satF (b : Nat) : fBits (satF b) = min b infBits := by
  rw [satF, fBits_roundF, roundMag_exact one_pos (mul_one _).symm]

theorem satF_inf {b : Nat} (hb : infBits ≤ b) : satF b = fInf false :=
  eq_fInf (fSign_satF b) (by rw [fBits_satF, min_eq_right hb]) (isNaN_satF b)

/-- A factor `2^(k-6)` moves the exponent field by `k - 6`, where the result is normal, and rounds nothing away. -/
theorem fMul_octave {a : F32} (ha : isFinite a = true) (sa : fSign a = false) {k b : Nat} (hk : k < 11)
    (hn : 2 ^ 23 ≤ fBits a) (hb : 2 ^ 23 ≤ b) (hbits : fBits a + k * 2 ^ 23 = b + 6 * 2 ^ 23) :
    fMul a (fPow2 ((k : Nat) - 6)) = satF b := by
  obtain ⟨fp, sp, hp⟩ := fPow2_octave k hk
  have hexact : fMag a * 2 ^ (143 + k) = magOf b * fUnit :=
    calc fMag a * 2 ^ (143 + k) = magOf (fBits a) * 2 ^ k * 2 ^ 143 := by rw [fMag, pow_add]; ring
      _ = magOf b * 2 ^ 6 * 2 ^ 143 := by rw [← magOf_add_octaves k hn, hbits, magOf_add_octaves 6 hb]
      _ = magOf b * fUnit := by rw [mul_assoc, ← pow_add]; rfl
  have hround : roundMag (fMag a * 2 ^ (143 + k)) fUnit = b := roundMag_exact fUnit_pos hexact
  rw [fMul_pos ha fp sa sp, hp]
  exact f32_ext (by simp) (by rw [fBits_roundF, hround, fBits_satF])

theorem fTwo_mul_satF {b : Nat} (hb : 2 ^ 23 ≤ b) : fMul fTwo (satF b) = satF (b + 2 ^ 23) := by
  rcases lt_or_ge b infBits with hfin | hinf
  · have hbits : fBits (satF b) = b := by rw [fBits_satF, min_eq_left hfin.le]
    have hf : isFinite (satF b) = true := isFinite_iff.2 (hbits.trans_lt hfin)
    have htwo : fTwo = fPow2 ((7 : Nat) - 6) := by decide
    rw [fMul_comm (by decide) hf (by rw [Ne, fMag_eq_zero]; omega), htwo]
    exact fMul_octave hf (fSign_satF b) (by omega) (by omega) (by omega) (by omega)
  · rw [satF_inf hinf, satF_inf (by omega)]
    decide

/-- One more octave is a factor 2, also where the product is an infinity. -/
theorem fMul_octave_succ {a : F32} (ha : PosVal a) (hn : 7 * 2 ^ 23 ≤ fBits a) {k : Nat} (hk : k + 1 < 11) :
    fMul a (fPow2 ((k + 1 : Nat) - 6)) = fMul fTwo (fMul a (fPow2 ((k : Nat) - 6))) := by
  obtain ⟨hnan, hs⟩ := ha
  rcases finite_or_inf hnan with fa | ia
  · obtain ⟨b, hb⟩ : ∃ b, fBits a + k * 2 ^ 23 = b + 6 * 2 ^ 23 := ⟨_, (Nat.sub_add_cancel (by omega)).symm⟩
    rw [fMul_octave fa hs (by omega) (by omega) (by omega) hb, fTwo_mul_satF (by omega)]
    have hnext : fBits a + (k + 1) * 2 ^ 23 = b + 2 ^ 23 + 6 * 2 ^ 23 := by
      rw [add_one_mul, ← add_assoc, hb, add_right_comm]
    exact fMul_octave fa hs hk (by omega) (Nat.le_add_left ..) hnext
  · have hstep : ∀ j < 11, fMul (fInf false) (fPow2 ((j : Nat) - 6)) = fInf false := fun j hj => by
      obtain ⟨fp, sp, hp⟩ := fPow2_octave j hj
      exact fInf_mul fp sp (by rw [hp]; exact (Nat.two_pow_pos _).ne')
    rw [eq_fInf hs (isInf_iff.1 ia).ge hnan, hstep _ hk, hstep k (by omega)]
    decide

theorem fLt_satF {b c : Nat} (h : b < c) (hb : b < infBits) : fLt (satF b) (satF c) = true := by
  rw [fLt_iff, fVal_lt_iff_of_pos (fSign_satF b) (fSign_satF c), fBits_satF, fBits_satF]
  exact ⟨isNaN_satF b, isNaN_satF c, by omega⟩

/-! ### The increment by octave and semitone -/

/-- `C` of R85: the increment of note 69. -/
def baseInc (L : Nat) (fs : F32) : F32 := fDiv (fMul (fOfInt L) f440) fs

/-- `C * SEMI[r]` of R85. -/
def toneInc (L : Nat) (fs : F32) (r : Nat) : F32 := fMul (baseInc L fs) (semi r)

theorem semi_spec : ∀ r < 12, isFinite (semi r) = true ∧ fSign (semi r) = false ∧ fUnit ≤ fMag (semi r) := by decide

/-- R85, with the notes counted from 3 below the lowest one, so that the octave is `k - 6`. -/
theorem phaseInc_eq (L : Nat) (fs : F32) {n k r : Nat} (hr : r < 12) (h : n + 3 = 12 * k + r) :
    phaseInc L fs n = fMul (toneInc L fs r) (fPow2 ((k : Nat) - 6)) := by
  have hsemi : (((n : Int) - 69) % 12).toNat = r := by omega
  have hoct : ((n : Int) - 69) / 12 = (k : Int) - 6 := by omega
  unfold phaseInc
  rw [hsemi, hoct]
  rfl

theorem baseInc_eq {L : Nat} {fs : F32} (hL : L ≤ 16384) (hfin : isFinite fs = true) (hpos : fLt 0#32 fs = true) :
    0 < fMag fs ∧ baseInc L fs = roundF false (L * 440 * fUnit * fUnit) (fMag fs) := by
  have hval := (fLt_iff.1 hpos).2.2
  rw [fVal_zero] at hval
  have hs := fSign_of_pos hval
  rw [fVal_pos hs] at hval
  have hL24 : (L : Int).natAbs < 2 ^ 24 := by omega
  have hsL : fSign (fOfInt L) = false := (fSign_fOfInt L).trans (decide_eq_false (by omega))
  have hprod : fMul (fOfInt L) f440 = roundF false (L * fUnit * (440 * fUnit)) fUnit := by
    rw [fMul_pos (isFinite_fOfInt hL24) (by decide) hsL (by decide), fMag_fOfInt hL24]
    rfl
  obtain ⟨hf, hmag⟩ : isFinite (fMul (fOfInt L) f440) = true ∧ fMag (fMul (fOfInt L) f440) = L * 440 * fUnit := by
    rw [hprod]
    exact roundF_whole fUnit_pos (by omega) (by ring)
  refine ⟨by omega, ?_⟩
  rw [baseInc, fDiv_finite hf hfin (by omega), hmag, hs, hprod, fSign_roundF]
  rfl

/-- The slowest increment, at the highest rate and the shortest table, is far above the subnormals: at least 2^-118. -/
theorem baseInc_large {L : Nat} {fs : F32} (hL4 : 4 ≤ L) (hL : L ≤ 16384) (hfin : isFinite fs = true)
    (hpos : fLt 0#32 fs = true) : PosVal (baseInc L fs) ∧ 9 * 2 ^ 23 ≤ fBits (baseInc L fs) := by
  obtain ⟨h0, hbase⟩ := baseInc_eq hL hfin hpos
  rw [hbase]
  refine ⟨posVal_roundF .., le_fBits_roundF h0 (by decide) ?_⟩
  have hmag : fMag fs ≤ magOf infBits := magOf_le_iff.2 (isFinite_iff.1 hfin).le
  calc magOf (9 * 2 ^ 23) * fMag fs ≤ magOf (9 * 2 ^ 23) * magOf infBits := Nat.mul_le_mul_left _ hmag
    _ ≤ 4 * 440 * fUnit * fUnit := by decide
    _ ≤ L * 440 * fUnit * fUnit := by gcongr

theorem toneInc_large {L : Nat} {fs : F32} {r : Nat} (hL4 : 4 ≤ L) (hL : L ≤ 16384) (hfin : isFinite fs = true)
    (hpos : fLt 0#32 fs = true) (hr : r < 12) : PosVal (toneInc L fs r) ∧ 9 * 2 ^ 23 ≤ fBits (toneInc L fs r) := by
  obtain ⟨hbase, hbits⟩ := baseInc_large hL4 hL hfin hpos
  obtain ⟨hf, hs, h1⟩ := semi_spec r hr
  have hgrow := fMul_grows hbase hf hs h1
  exact ⟨hgrow.1, hbits.trans hgrow.2⟩

/-- Settles O34: the octave and the semitone are the quotient and the remainder by 12 (`phaseInc_eq`); twelve notes up the octave
is one higher and the semitone the same, and one octave more is a factor 2 (`fMul_octave_succ`). -/
theorem octaveDoublesTheIncrement : Obligations.OctaveDoublesTheIncrement := by
  intro L fs n hn
  constructor
  · intro q r x hqr hx
    have hr : r < 12 := (List.getElem?_eq_some_iff.1 hx).1
    obtain ⟨k, rfl⟩ : ∃ k : Nat, q = k - 6 := ⟨(q + 6).toNat, by omega⟩
    have hsemi : semi r = x := by
      rw [semi, List.getD_eq_getElem?_getD]
      exact congrArg (Option.getD · fOne) hx
    rw [phaseInc_eq L fs hr (k := k) (by omega), toneInc, hsemi, fPow2_pattern k (by omega)]
    rfl
  · intro hL4 hL hfin hpos hn115
    have hr : (n + 3) % 12 < 12 := Nat.mod_lt _ (by omega)
    obtain ⟨htone, hbits⟩ := toneInc_large hL4 hL hfin hpos hr
    rw [phaseInc_eq L fs (n := n) (k := (n + 3) / 12) hr (by omega),
      phaseInc_eq L fs (n := n + 12) (k := (n + 3) / 12 + 1) hr (by omega)]
    exact fMul_octave_succ htone (by omega) (by omega)

/-! ### The increment rises -/

/-- Neighbouring normal magnitudes differ by at most one part in `2^23`. -/
theorem magOf_gap {b : Nat} (hb : 2 ^ 23 ≤ b) : 2 ^ 23 * magOf (b + 1) ≤ (2 ^ 23 + 1) * magOf b := by
  obtain ⟨e, m, rfl, hm, h⟩ := exists_split b
  rw [Nat.add_assoc, magOf_split e (m + 1) (by omega) (by omega), magOf_split e m hm.le h, ← mul_assoc, ← mul_assoc]
  exact Nat.mul_le_mul_right _ (by omega)

/-- Two rationals more than one part in `2^23` apart do not round to one normal magnitude. -/
theorem roundMag_lt {n₁ n₂ den : Nat} (hd : 0 < den) (hb : 2 ^ 23 < roundMag n₁ den)
    (h : (2 ^ 23 + 1) * n₁ < 2 ^ 23 * n₂) : roundMag n₁ den < roundMag n₂ den := by
  by_contra hle
  obtain ⟨-, hlow⟩ := roundMag_nearest n₁ den hd
  obtain ⟨hup, -⟩ := roundMag_nearest n₂ den hd
  generalize roundMag n₁ den = b at *
  generalize roundMag n₂ den = c at *
  have hgap : 2 ^ 23 * (magOf b + magOf (b + 1)) ≤ (2 ^ 23 + 1) * (magOf (b - 1) + magOf b) := by
    have h₁ := magOf_gap (b := b - 1) (by omega)
    have h₂ := magOf_gap (b := b) (by omega)
    rw [Nat.sub_add_cancel (by omega)] at h₁
    omega
  have hc : magOf c + magOf (c + 1) ≤ magOf b + magOf (b + 1) :=
    add_le_add (magOf_le_iff.2 (by omega)) (magOf_le_iff.2 (by omega))
  have : 2 ^ 23 * (2 * n₂) ≤ (2 ^ 23 + 1) * (2 * n₁) :=
    calc 2 ^ 23 * (2 * n₂) ≤ 2 ^ 23 * ((magOf c + magOf (c + 1)) * den) := Nat.mul_le_mul_left _ (by omega)
      _ ≤ 2 ^ 23 * (magOf b + magOf (b + 1)) * den := by rw [← mul_assoc]; gcongr
      _ ≤ (2 ^ 23 + 1) * (magOf (b - 1) + magOf b) * den := by gcongr
      _ ≤ (2 ^ 23 + 1) * (2 * n₁) := by rw [mul_assoc]; exact Nat.mul_le_mul_left _ (by omega)
  omega

/-- The semitones of R86 are more than one part in `2^23` apart, and so is the last from the next octave. -/
theorem semi_apart : ∀ r < 11, (2 ^ 23 + 1) * fMag (semi r) < 2 ^ 23 * fMag (semi (r + 1)) := by decide

theorem semi_last_apart : (2 ^ 23 + 1) * fMag (semi 11) < 2 ^ 23 * (2 * fUnit) := by decide

theorem semi_le_last : ∀ r < 12, fMag (semi r) ≤ fMag (semi 11) := by decide

section
variable {L : Nat} {fs : F32} (hL4 : 4 ≤ L) (hL : L ≤ 16384) (hrate : fLe 0x0D800000#32 fs = true)
  (hfin : isFinite fs = true)

include hrate in
theorem rate_positive : fLt 0#32 fs = true := by
  obtain ⟨-, hnan, hle⟩ := fLe_iff.1 hrate
  rw [fLt_iff, fVal_zero]
  exact ⟨isNaN_zero, hnan, lt_of_lt_of_le (by decide) hle⟩

include hL hrate hfin

/-- At rates from 2^-100 up the fastest base increment is `16384 * 440 * 2^100`, below 2^123. -/
theorem baseInc_le : fBits (baseInc L fs) ≤ 248 * 2 ^ 23 + 14417920 := by
  obtain ⟨h0, hbase⟩ := baseInc_eq hL hfin (rate_positive hrate)
  obtain ⟨-, hnan, hle⟩ := fLe_iff.1 hrate
  have hlow : 2 ^ 49 ≤ fMag fs := by
    have hs : fSign fs = false := fSign_of_pos (lt_of_lt_of_le (by decide) hle)
    rw [fVal_pos hs, show fVal 0x0D800000#32 = (2 ^ 49 : Nat) by decide] at hle
    exact_mod_cast hle
  rw [hbase]
  refine fBits_roundF_le h0 ?_
  calc L * 440 * fUnit * fUnit ≤ 16384 * 440 * fUnit * fUnit := by gcongr
    _ = magOf (248 * 2 ^ 23 + 14417920) * 2 ^ 49 := by decide
    _ ≤ magOf (248 * 2 ^ 23 + 14417920) * fMag fs := Nat.mul_le_mul_left _ hlow

theorem isFinite_baseInc : isFinite (baseInc L fs) = true :=
  isFinite_iff.2 ((baseInc_le hL hrate hfin).trans_lt (by decide))

include hL4

/-- Within one octave no semitone overflows: each stays below 2^124, so it is its rounding with the exponent unbounded. -/
theorem toneInc_eq {r : Nat} (hr : r < 12) : fBits (toneInc L fs r) < 251 * 2 ^ 23 ∧
    fBits (toneInc L fs r) = roundMag (fMag (baseInc L fs) * fMag (semi r)) fUnit := by
  obtain ⟨⟨-, hs⟩, -⟩ := baseInc_large hL4 hL hfin (rate_positive hrate)
  obtain ⟨hf, hsemi, -⟩ := semi_spec r hr
  have hround : roundMag (fMag (baseInc L fs) * fMag (semi r)) fUnit ≤ 251 * 2 ^ 23 - 1 := by
    refine roundMag_le fUnit_pos ?_
    calc fMag (baseInc L fs) * fMag (semi r) ≤ magOf (248 * 2 ^ 23 + 14417920) * fMag (semi 11) :=
          Nat.mul_le_mul (magOf_le_iff.2 (baseInc_le hL hrate hfin)) (semi_le_last r hr)
      _ ≤ magOf (251 * 2 ^ 23 - 1) * fUnit := by decide
  rw [toneInc, fMul_pos (isFinite_baseInc hL hrate hfin) hf hs hsemi, fBits_roundF]
  unfold infBits
  omega

/-- A semitone lies below every factor more than one part in `2^23` above its own. -/
theorem toneInc_lt_roundMag {r m : Nat} (hr : r < 12) (h : (2 ^ 23 + 1) * fMag (semi r) < 2 ^ 23 * m) :
    fBits (toneInc L fs r) < roundMag (fMag (baseInc L fs) * m) fUnit := by
  have hbase := (baseInc_large hL4 hL hfin (rate_positive hrate)).2
  have htone := (toneInc_large hL4 hL hfin (rate_positive hrate) hr).2
  have h0 : 0 < fMag (baseInc L fs) := Nat.pos_of_ne_zero (by rw [Ne, fMag_eq_zero]; omega)
  rw [(toneInc_eq hL4 hL hrate hfin hr).2] at htone ⊢
  refine roundMag_lt fUnit_pos (by omega) ?_
  rw [mul_left_comm, mul_left_comm (2 ^ 23)]
  exact Nat.mul_lt_mul_of_pos_left h h0

theorem toneInc_lt_succ {r : Nat} (hr : r < 11) : fBits (toneInc L fs r) < fBits (toneInc L fs (r + 1)) := by
  rw [(toneInc_eq hL4 hL hrate hfin (r := r + 1) (by omega)).2]
  exact toneInc_lt_roundMag hL4 hL hrate hfin (by omega) (semi_apart r hr)

/-- The last semitone of an octave lies below the first of the next. -/
theorem toneInc_last_lt : fBits (toneInc L fs 11) < fBits (toneInc L fs 0) + 2 ^ 23 := by
  have hbase := (baseInc_large hL4 hL hfin (rate_positive hrate)).2
  have hfirst : toneInc L fs 0 = baseInc L fs := fMul_one (isFinite_baseInc hL hrate hfin)
  have hnext : roundMag (fMag (baseInc L fs) * (2 * fUnit)) fUnit = fBits (baseInc L fs) + 2 ^ 23 := by
    refine roundMag_exact fUnit_pos ?_
    rw [← mul_assoc, ← one_mul (2 ^ 23), magOf_add_octaves 1 (by omega)]
    rfl
  rw [hfirst, ← hnext]
  exact toneInc_lt_roundMag hL4 hL hrate hfin (by omega) semi_last_apart

/-- An increment is the one of its semitone, with the exponent field moved by the octave. -/
theorem phaseInc_eq_satF {n k r : Nat} (hn : n ≤ 127) (hr : r < 12) (h : n + 3 = 12 * k + r) :
    ∃ b < infBits, fBits (toneInc L fs r) + k * 2 ^ 23 = b + 6 * 2 ^ 23 ∧ phaseInc L fs n = satF b := by
  obtain ⟨⟨-, hs⟩, hlow⟩ := toneInc_large hL4 hL hfin (rate_positive hrate) hr
  have hup := (toneInc_eq hL4 hL hrate hfin hr).1
  have hf : isFinite (toneInc L fs r) = true := isFinite_iff.2 (hup.trans (by decide))
  obtain ⟨b, hb⟩ : ∃ b, fBits (toneInc L fs r) + k * 2 ^ 23 = b + 6 * 2 ^ 23 :=
    ⟨_, (Nat.sub_add_cancel (by omega)).symm⟩
  refine ⟨b, by unfold infBits; omega, hb, ?_⟩
  rw [phaseInc_eq L fs hr h]
  exact fMul_octave hf hs (by omega) (by omega) (by omega) hb

end

/-- Settles O35: the next note is the next semitone of the same octave or, after the last, the first of the next; either way the
magnitude bits rise, and at these rates no increment overflows. -/
theorem incrementRisesWithTheNote : Obligations.IncrementRisesWithTheNote := by
  intro L fs n hL4 hL hrate hfin hn
  have hr : (n + 3) % 12 < 12 := Nat.mod_lt _ (by omega)
  obtain ⟨b, hb, hbits, heq⟩ :=
    phaseInc_eq_satF hL4 hL hrate hfin (n := n) (k := (n + 3) / 12) (by omega) hr (by omega)
  rw [heq]
  rcases Nat.lt_or_ge ((n + 3) % 12) 11 with hsame | hlast
  · obtain ⟨c, -, hbits', heq'⟩ := phaseInc_eq_satF hL4 hL hrate hfin (n := n + 1) (k := (n + 3) / 12)
      (r := (n + 3) % 12 + 1) (by omega) (by omega) (by omega)
    have hrise := toneInc_lt_succ hL4 hL hrate hfin hsame
    rw [heq']
    exact fLt_satF (by omega) hb
  · obtain ⟨c, -, hbits', heq'⟩ := phaseInc_eq_satF hL4 hL hrate hfin (n := n + 1) (k := (n + 3) / 12 + 1)
      (r := 0) (by omega) (by omega) (by omega)
    have hrise := toneInc_last_lt hL4 hL hrate hfin
    rw [show (n + 3) % 12 = 11 by omega] at hbits
    rw [heq']
    exact fLt_satF (by omega) hb

/-! ### `fexp2` between -126 and 126 is positive, and `1.0` at a zero -/

/-- The Taylor sum is at least its first term, here `1.0`. -/
theorem fixOne_le_exp2Frac (f : Nat) : fixOne ≤ exp2Frac f := by
  have hsquare : ∀ k v, fixOne ≤ v → fixOne ≤ squareFix k v := by
    intro k
    induction k with
    | zero => exact fun v hv => hv
    | succ k ih => exact fun v hv => ih _ ((Nat.le_div_iff_mul_le fixOne_pos).2 (Nat.mul_le_mul hv hv))
  exact hsquare 8 _ (Nat.le_add_right ..)

/-- `2^x` with an integer part of at least -149 is at least one unit. -/
theorem exp2CR_positive {x : F32} (hx : -149 ≤ fVal x / (fUnit : Int)) : fLt 0#32 (exp2CR x) = true := by
  have hfrac := fixOne_le_exp2Frac (fVal x % (fUnit : Int)).toNat
  unfold exp2CR
  dsimp only
  generalize fVal x / (fUnit : Int) = n at *
  generalize exp2Frac (fVal x % (fUnit : Int)).toNat = v at *
  split_ifs
  · decide
  · omega
  · cases n with
    | ofNat k =>
      refine roundF_positive fixOne_pos ?_
      calc fixOne ≤ v := hfrac
        _ ≤ v * (fUnit * 2 ^ k) := Nat.le_mul_of_pos_right _ (Nat.mul_pos fUnit_pos (Nat.two_pow_pos k))
        _ = v * fUnit * 2 ^ k := (mul_assoc ..).symm
    | negSucc k =>
      have hk : 2 ^ (k + 1) ≤ fUnit := Nat.pow_le_pow_right two_pos (by omega)
      exact roundF_positive (Nat.mul_pos fixOne_pos (Nat.two_pow_pos _)) (Nat.mul_le_mul hfrac hk)

theorem fPow2_positive {k : Int} (hk : k.natAbs ≤ 126) : fLt 0#32 (fPow2 k) = true := by
  cases k with
  | ofNat n => exact roundF_positive one_pos (Nat.mul_pos (Nat.two_pow_pos n) fUnit_pos)
  | negSucc n =>
    refine roundF_positive (Nat.two_pow_pos _) ?_
    rw [one_mul]
    exact Nat.pow_le_pow_right two_pos (by omega)

theorem limitPositive_positive (y : F32) : fLt 0#32 (limitPositive y) = true := by
  unfold limitPositive
  split
  · assumption
  · decide

theorem natAbs_smallInt_le {x : F32} {k : Int} (h : smallInt x = some k) : k.natAbs ≤ 126 := by
  unfold smallInt at h
  split at h
  · next hk => exact (Option.some.inj h) ▸ hk.2
  · cases h

theorem fexp2_positive (p : Params) {x : F32} (hx : AtMost 126 x) : fLt 0#32 (fexp2 p x) = true := by
  obtain ⟨hfin, hmag⟩ := hx
  unfold fexp2
  rw [if_pos hfin]
  cases p.transcendental with
  | cr =>
    refine exp2CR_positive ((Int.le_ediv_iff_mul_le (by exact_mod_cast fUnit_pos)).2 ?_)
    have habs := natAbs_fVal x
    omega
  | anyAllowed =>
    cases hk : smallInt x with
    | some k => exact fPow2_positive (natAbs_smallInt_le hk)
    | none => exact limitPositive_positive _

theorem fexp2_fZero (p : Params) (neg : Bool) : fexp2 p (fZero neg) = fOne := by
  have hcr : ∀ s, exp2CR (fZero s) = fOne := by decide +kernel
  have hint : ∀ s, smallInt (fZero s) = some 0 := by decide
  have hpow : fPow2 0 = fOne := by decide
  unfold fexp2
  rw [if_pos (isFinite_fZero neg), hcr, hint]
  cases p.transcendental with
  | cr => rfl
  | anyAllowed => exact hpow

/-! ### The layout -/

theorem f12_spec : isFinite f12 = true ∧ fMag f12 = 12 * fUnit := by decide

/-- The exponent of a layout entry: `offset * D / 12`. -/
def layoutExponent (k : Int) (D : F32) : F32 := fDiv (fMul (fOfInt k) D) f12

/-- The largest legal offset times the largest legal detune is 384 semitones, 32 octaves. -/
theorem atMost_layoutExponent {k : Int} {D : F32} (hD : isFinite D = true) (hk : k.natAbs < 2 ^ 24)
    (h : k.natAbs * fMag D ≤ 384 * fUnit) : AtMost 32 (layoutExponent k D) := by
  have hprod : AtMost 384 (fMul (fOfInt k) D) := by
    rw [fMul_finite (isFinite_fOfInt hk) hD, fMag_fOfInt hk]
    refine atMost_roundF fUnit_pos (by norm_num) ?_
    rw [mul_right_comm]
    exact Nat.mul_le_mul_right _ h
  obtain ⟨hfin, hmag⟩ := hprod
  obtain ⟨h12, h12mag⟩ := f12_spec
  rw [layoutExponent, fDiv_finite hfin h12 (by rw [h12mag]; decide), h12mag]
  refine atMost_roundF (Nat.mul_pos (by norm_num) fUnit_pos) (by norm_num) ?_
  calc fMag (fMul (fOfInt k) D) * fUnit ≤ 384 * fUnit * fUnit := Nat.mul_le_mul_right _ hmag
    _ = 32 * fUnit * (12 * fUnit) := by ring

/-- At offset 0 or detune 0 the exponent is a zero. -/
theorem layoutExponent_zero {k : Int} {D : F32} (hD : isFinite D = true) (hk : k.natAbs < 2 ^ 24)
    (h : k = 0 ∨ fVal D = 0) : ∃ neg, layoutExponent k D = fZero neg := by
  have hzero : fMag (fOfInt k) * fMag D = 0 := by
    rw [fMag_fOfInt hk, ← natAbs_fVal D]
    rcases h with h | h <;> simp [h]
  obtain ⟨h12, h12mag⟩ := f12_spec
  rw [layoutExponent, fMul_finite (isFinite_fOfInt hk) hD, hzero, roundF_zero _ fUnit_pos,
    fDiv_finite (isFinite_fZero _) h12 (by rw [h12mag]; decide), fMag_fZero, zero_mul]
  exact ⟨_, roundF_zero _ (by rw [h12mag]; decide)⟩

theorem layoutEntry_of_lt (p : Params) {N i : Nat} (D : F32) (h : i < N) :
    layoutEntry p N D i = fexp2 p (layoutExponent ((i : Int) - ((N / 2 : Nat) : Int)) D) := if_pos h

theorem layoutEntry_of_ge (p : Params) {N i : Nat} (D : F32) (h : N ≤ i) : layoutEntry p N D i = 0#32 :=
  if_neg (by omega)

theorem layoutEntry_eq_one (p : Params) {N i : Nat} {D : F32} (hD : isFinite D = true) (hN : N < 2 ^ 24) (hi : i < N)
    (h : N = 1 ∨ fVal D = 0) : layoutEntry p N D i = fOne := by
  obtain ⟨neg, hz⟩ := layoutExponent_zero (k := (i : Int) - ((N / 2 : Nat) : Int)) hD (by omega)
    (h.imp (fun h1 => by omega) id)
  rw [layoutEntry_of_lt p D hi, hz, fexp2_fZero]

@[simp] theorem length_layout (p : Params) (N : Nat) (D : F32) : (layout p N D).length = p.unisonMax := by simp [layout]

theorem getElem?_layout (p : Params) (N : Nat) (D : F32) {i : Nat} (hi : i < p.unisonMax) :
    (layout p N D)[i]? = some (layoutEntry p N D i) := by
  simp [layout, List.getElem?_range hi]

/-- Settles O36: an offset is at most half the size, so an exponent is at most 32 and the entry positive; at detune 0 each
exponent is a zero. -/
theorem layoutHasExactlyNEntries : Obligations.LayoutHasExactlyNEntries := by
  intro p N D hp hN1 hN hD
  obtain ⟨hlo, hhi⟩ := Bool.and_eq_true_iff.1 hD
  have hU := hp.unisonMax
  obtain ⟨hdmfin, hdm0, hdm⟩ := hp.detuneMax
  have hDmag : fMag D ≤ fMag p.detuneMax := by
    have h0 := (fLe_iff.1 hlo).2.2
    have h1 := (fLe_iff.1 hhi).2.2
    rw [fVal_zero] at h0
    rw [← natAbs_fVal, ← natAbs_fVal]
    omega
  have hDfin : isFinite D = true := isFinite_iff.2 ((fMag_le_iff.1 hDmag).trans_lt (isFinite_iff.1 hdmfin))
  have hprod : N * fMag D ≤ 768 * fUnit := (Nat.mul_le_mul hN hDmag).trans hdm
  refine ⟨length_layout p N D, fun i hi => ?_, fun i hNi hi => ?_, fun hD0 => ?_⟩
  · refine ⟨_, getElem?_layout p N D (by omega), ?_⟩
    have hoff : 2 * ((i : Int) - ((N / 2 : Nat) : Int)).natAbs ≤ N := by omega
    have hexp := atMost_layoutExponent (k := (i : Int) - ((N / 2 : Nat) : Int)) hDfin (by omega) (by
      have := Nat.mul_le_mul_right (fMag D) hoff
      rw [mul_assoc] at this
      omega)
    rw [layoutEntry_of_lt p D hi]
    exact fexp2_positive p ⟨hexp.1, hexp.2.trans (Nat.mul_le_mul_right _ (by norm_num))⟩
  · rw [getElem?_layout p N D hi, layoutEntry_of_ge p D hNi]
  · refine List.ext_getElem (by simp; omega) fun i hi _ => ?_
    rw [length_layout] at hi
    have hget := getElem?_layout p N D hi
    rw [List.getElem?_eq_getElem (by simpa using hi), Option.some.injEq] at hget
    rw [hget, List.getElem_append]
    split
    · next h =>
      rw [List.getElem_replicate]
      exact layoutEntry_eq_one p hDfin (by omega) (by simpa using h) (.inr hD0)
    · next h =>
      rw [List.getElem_replicate]
      exact layoutEntry_of_ge p D (by simpa using h)

/-! ### The readout -/

theorem tableLen_bounds {p : Params} (hp : ParamsLegal p) : 0 < p.tableLen ∧ p.tableLen < 2 ^ 24 := by
  obtain ⟨k, -, hk, hL⟩ := hp.tableLen
  exact hL ▸ ⟨Nat.two_pow_pos k, Nat.pow_lt_pow_right (by norm_num) (by omega)⟩

theorem tableIndex_lt {L : Nat} (hL : 0 < L) (phase ratio : F32) : tableIndex L phase ratio < L := by
  have h := Int.emod_lt_of_pos (roundHalfUp (fMod (fMul phase ratio) (fOfInt L))) (Int.natCast_pos.2 hL)
  unfold tableIndex
  omega

/-- R74, in the form the sum needs. -/
theorem atMost_tableEntry {p : Params} (hp : ParamsLegal p) (w : Waveform) {i : Nat} (hi : i < p.tableLen) :
    AtMost 1 (tableEntry p.tableLen w i) := by
  obtain ⟨k, hk2, hk14, hL⟩ := hp.tableLen
  rw [hL] at hi ⊢
  exact atMost_iff_unit.2 (tableEntriesAreBounded k w i hk2 hk14 hi)

/-- A sum of values in `[-1, 1]` is at most their number, since rounding does not pass a whole number. -/
theorem atMost_foldl_fAdd {f : Nat → F32} (hf : ∀ i, AtMost 1 (f i)) {n : Nat} (hn : n < 2 ^ 24) :
    AtMost n ((List.range n).foldl (fun sum i => fAdd sum (f i)) 0#32) := by
  induction n with
  | zero => exact ⟨isFinite_zero, by simp⟩
  | succ n ih =>
    rw [List.range_succ, List.foldl_concat]
    exact atMost_fAdd (ih (by omega)) (hf n) hn

/-- A value of at most `n`, divided by `n`, is in `[-1, 1]`. -/
theorem atMost_fDiv {x : F32} {n : Nat} (hx : AtMost n x) (h0 : 0 < n) (hn : n < 2 ^ 24) :
    AtMost 1 (fDiv x (fOfInt n)) := by
  obtain ⟨hfin, hmag⟩ := hx
  have hn' : (n : Int).natAbs < 2 ^ 24 := by omega
  have hpos := fMag_fOfInt_pos h0 hn
  rw [fDiv_finite hfin (isFinite_fOfInt hn') hpos.ne']
  refine atMost_roundF hpos (by norm_num) ?_
  rw [fMag_fOfInt hn', Int.natAbs_natCast, one_mul, mul_comm fUnit]
  exact Nat.mul_le_mul_right _ hmag

/-- A phase is its own remainder by the table length. -/
theorem fMod_of_below {x m : F32} (hx : below m x = true) (hm : isFinite m = true) (h0 : fLt 0#32 m = true) :
    isFinite x = true ∧ fMod x m = x := by
  simp only [below, Bool.and_eq_true, Bool.not_eq_true'] at hx
  obtain ⟨hs, hlt⟩ := hx
  obtain ⟨hnan, hmnan, hval⟩ := fLt_iff.1 hlt
  have hfin : isFinite x = true := finite_of_le (fLe_iff.2 ⟨hnan, hmnan, hval.le⟩) hs hm
  have hle : fLe 0#32 x = true := fLe_iff.2 ⟨isNaN_zero, hnan, by rw [fVal_zero]; exact fVal_nonneg_of_pos hs⟩
  have hmag : fMag x < fMag m := by
    have hsm := fSign_of_lt (fVal_nonneg_of_pos hs) hval
    rw [fVal_pos hs, fVal_pos hsm] at hval
    exact_mod_cast hval
  have hself := roundF_self hnan
  rw [hs] at hself
  exact ⟨hfin, by rw [fMod_eq hfin hm hle h0, Nat.mod_eq_of_lt hmag, hself]⟩

/-- At ratio `1.0` the index is that of the entry nearest the phase. -/
theorem tableIndex_one {L : Nat} (hL0 : 0 < L) (hL : L < 2 ^ 24) {phase : F32} (h : below (fOfInt L) phase = true) :
    tableIndex L phase fOne = (roundHalfUp phase % (L : Int)).toNat := by
  have hL' : (L : Int).natAbs < 2 ^ 24 := by omega
  have hpos : fLt 0#32 (fOfInt L) = true := by
    have hmag := fMag_fOfInt_pos hL0 hL
    have hs : fSign (fOfInt L) = false := (fSign_fOfInt L).trans (decide_eq_false (by omega))
    rw [fLt_iff, fVal_zero, fVal_pos hs]
    exact ⟨isNaN_zero, isFinite_not_nan (isFinite_fOfInt hL'), by exact_mod_cast hmag⟩
  obtain ⟨hfin, hmod⟩ := fMod_of_below h (isFinite_fOfInt hL') hpos
  rw [tableIndex, fMul_one hfin, hmod]

/-- Adding to `+0.0` keeps a finite value; of a `-0.0` it clears the sign. -/
theorem fVal_fAdd_zero_left {x : F32} (h : isFinite x = true) :
    isFinite (fAdd 0#32 x) = true ∧ fVal (fAdd 0#32 x) = fVal x := by
  by_cases hz : x = 0x80000000#32
  · subst hz
    decide
  · rw [fAdd_zero_left h hz]
    exact ⟨h, rfl⟩

/-- One oscillator: the one entry, added to `+0.0`. -/
theorem unisonReadout_one {p : Params} {b : Bank} {phase : F32} (hb : b.unison = 1)
    (hfin : isFinite (tableEntry p.tableLen b.waveform (tableIndex p.tableLen phase (bankRatio b 0))) = true) :
    unisonReadout p b phase =
      fAdd 0#32 (tableEntry p.tableLen b.waveform (tableIndex p.tableLen phase (bankRatio b 0))) := by
  rw [unisonReadout, hb]
  show fDiv _ (fOfInt 1) = _
  rw [fOfInt_one]
  exact fDiv_one (fVal_fAdd_zero_left hfin).1

theorem bankRatio_single {p : Params} {b : Bank} (hp : ParamsLegal p) (hb : b.unison = 1) (hlayout : layoutOk p b)
    (hD : isFinite b.detune = true) : bankRatio b 0 = fOne := by
  have hget := getElem?_layout p b.unison b.detune (i := 0) (by have := hp.unisonMax; omega)
  rw [bankRatio, show b.ratio = _ from hlayout, List.getD_eq_getElem?_getD, hget]
  exact layoutEntry_eq_one p hD (by omega) (by omega) (.inl hb)

/-- The sum over the first `n` entries of a list, by index or by entry. -/
theorem foldl_range_getD (f : F32 → F32 → F32) (z d : F32) {l : List F32} {n : Nat} (hn : n ≤ l.length) :
    (List.range n).foldl (fun sum i => f sum (l.getD i d)) z = (l.take n).foldl f z := by
  have hmap : (List.range n).map (l.getD · d) = l.take n := by
    refine List.ext_getElem (by simp [hn]) fun i hi _ => ?_
    simp only [List.length_map, List.length_range] at hi
    simp [List.getElem?_eq_getElem (show i < l.length by omega)]
  rw [← hmap, List.foldl_map]

/-- Settles O37: the sum by index is the sum over the ratios; `n` entries in `[-1, 1]` add up to at most `n`; and a single
oscillator has ratio `1.0`, so its one entry is read at the phase itself. -/
theorem singleOscillatorReadsTheTable : Obligations.SingleOscillatorReadsTheTable := by
  intro p b phase
  refine ⟨fun hlen => ?_, fun hp h1 h64 => ?_, fun hp hb hlayout hD hphase => ?_⟩
  · exact congrArg (fDiv · (fOfInt b.unison)) (foldl_range_getD (fun sum ratio =>
      fAdd sum (tableEntry p.tableLen b.waveform (tableIndex p.tableLen phase ratio))) 0#32 0#32 hlen)
  · have hentry : ∀ i, AtMost 1 (tableEntry p.tableLen b.waveform (tableIndex p.tableLen phase (bankRatio b i))) :=
      fun i => atMost_tableEntry hp _ (tableIndex_lt (tableLen_bounds hp).1 _ _)
    exact Bool.and_eq_true_iff.2
      (atMost_iff_unit.1 (atMost_fDiv (atMost_foldl_fAdd hentry (by omega)) (by omega) (by omega)))
  · obtain ⟨hL0, hL⟩ := tableLen_bounds hp
    have hentry := (atMost_tableEntry hp b.waveform (tableIndex_lt hL0 phase (bankRatio b 0))).1
    rw [unisonReadout_one hb hentry]
    rw [bankRatio_single hp hb hlayout hD, tableIndex_one hL0 hL hphase] at hentry ⊢
    exact fVal_fAdd_zero_left hentry

end Sys2Proof.Proofs.Oscillator
end

section
/-! PROOFS. Ranges of positive binary32 values: what an operation of `00_scope.md` R13 does to the bounds of its operands, and how far
the rounding of a product or of a quotient can raise it. -/

namespace Sys2Proof.Proofs.Range

open Sys2Proof Sys2Proof.Machine Sys2Proof.Laws Sys2Proof.Proofs.Wavetable Sys2Proof.Proofs.Oscillator

/-! ### Ranges -/

/-- A finite value with a clear sign bit whose magnitude lies between those of `lo` and `hi`. -/
structure Within (lo hi x : F32) : Prop where
  finite : isFinite x = true
  sign : fSign x = false
  lower : fMag lo ≤ fMag x
  upper : fMag x ≤ fMag hi

/-- A constant; as in the lemmas below, what is asked of constants is decided where the lemma is used. -/
theorem within_self {x : F32} (hf : isFinite x = true := by decide) (hs : fSign x = false := by decide) : Within x x x :=
  ⟨hf, hs, le_rfl, le_rfl⟩

theorem within_of_between {lo hi x : F32} (h : between lo hi x = true) (h0 : 0 < fVal lo := by decide)
    (hf : isFinite hi = true := by decide) : Within lo hi x := by
  obtain ⟨hlo, hhi⟩ := Bool.and_eq_true_iff.1 h
  have hl := (fLe_iff.1 hlo).2.2
  have hh := (fLe_iff.1 hhi).2.2
  have hs := fSign_of_pos (h0.trans_le hl)
  have hshi := fSign_of_pos (h0.trans_le (hl.trans hh))
  rw [fVal_pos (fSign_of_pos h0), fVal_pos hs] at hl
  rw [fVal_pos hs, fVal_pos hshi] at hh
  exact ⟨finite_of_le hhi hs hf, hs, by exact_mod_cast hl, by exact_mod_cast hh⟩

/-- Rounding does not pass a finite value, up or down. -/
theorem within_roundF {num den : Nat} {lo hi : F32} (hd : 0 < den) (hlo : isFinite lo = true) (hhi : isFinite hi = true)
    (h0 : fMag lo * den ≤ num) (h1 : num ≤ fMag hi * den) : Within lo hi (roundF false num den) where
  finite := isFinite_iff.2 ((fBits_roundF_le hd h1).trans_lt (isFinite_iff.1 hhi))
  sign := fSign_roundF ..
  lower := magOf_le_iff.2 (le_fBits_roundF hd (isFinite_iff.1 hlo).le h0)
  upper := magOf_le_iff.2 (fBits_roundF_le hd h1)

section
variable {x y a b c d lo hi : F32} (hx : Within a b x) (hy : Within c d y)
include hx hy

theorem within_fAdd (hlo : isFinite lo = true := by decide) (hhi : isFinite hi = true := by decide)
    (h0 : fMag lo ≤ fMag a + fMag c := by decide) (h1 : fMag b + fMag d ≤ fMag hi := by decide) :
    Within lo hi (fAdd x y) := by
  rw [fAdd_pos hx.finite hy.finite hx.sign hy.sign]
  refine within_roundF one_pos hlo hhi ?_ ?_
  · rw [mul_one]; exact h0.trans (add_le_add hx.lower hy.lower)
  · rw [mul_one]; exact (add_le_add hx.upper hy.upper).trans h1

theorem within_fMul (hlo : isFinite lo = true := by decide) (hhi : isFinite hi = true := by decide)
    (h0 : fMag lo * fUnit ≤ fMag a * fMag c := by decide) (h1 : fMag b * fMag d ≤ fMag hi * fUnit := by decide) :
    Within lo hi (fMul x y) := by
  rw [fMul_pos hx.finite hy.finite hx.sign hy.sign]
  exact within_roundF fUnit_pos hlo hhi (h0.trans (Nat.mul_le_mul hx.lower hy.lower))
    ((Nat.mul_le_mul hx.upper hy.upper).trans h1)

theorem fDiv_of_within (hc : 0 < fMag c := by decide) : fDiv x y = roundF false (fMag x * fUnit) (fMag y) := by
  rw [fDiv_finite hx.finite hy.finite (hc.trans_le hy.lower).ne', hx.sign, hy.sign]
  rfl

theorem within_fDiv (hc : 0 < fMag c := by decide) (hlo : isFinite lo = true := by decide)
    (hhi : isFinite hi = true := by decide) (h0 : fMag lo * fMag d ≤ fMag a * fUnit := by decide)
    (h1 : fMag b * fUnit ≤ fMag hi * fMag c := by decide) : Within lo hi (fDiv x y) := by
  rw [fDiv_of_within hx hy hc]
  refine within_roundF (hc.trans_le hy.lower) hlo hhi ?_ ?_
  · exact (Nat.mul_le_mul_left _ hy.upper).trans (h0.trans (Nat.mul_le_mul_right _ hx.lower))
  · exact (Nat.mul_le_mul_right _ hx.upper).trans (h1.trans (Nat.mul_le_mul_left _ hy.lower))

end

theorem within_fMin {x y a b d : F32} (hx : Within a b x) (hy : Within a d y) :
    Within a d (fMin x y) ∧ fMag (fMin x y) ≤ fMag y := by
  unfold fMin
  split
  · next h =>
    have hle : fMag x ≤ fMag y := by
      have hval := (fLe_iff.1 h).2.2
      rw [fVal_pos hx.sign, fVal_pos hy.sign] at hval
      exact_mod_cast hval
    exact ⟨⟨hx.finite, hx.sign, hx.lower, hle.trans hy.upper⟩, hle⟩
  · exact ⟨hy, le_rfl⟩

/-! ### The rounding error of a product and of a quotient -/

/-- Rounding a normal magnitude makes it larger by at most one part in `2^23`. -/
theorem fMag_roundF_mul_le {neg : Bool} {num den : Nat} (hd : 0 < den) (h : 2 ^ 23 * den ≤ num) :
    2 ^ 23 * (fMag (roundF neg num den) * den) ≤ (2 ^ 23 + 1) * num := by
  have hnormal : 2 ^ 23 ≤ roundMag num den := le_roundMag hd h
  have hinf : fMag (roundF neg num den) ≤ magOf (roundMag num den) :=
    (fMag_roundF ..).trans_le (magOf_le_iff.2 (min_le_left ..))
  obtain ⟨-, hlow⟩ := roundMag_nearest num den hd
  generalize roundMag num den = b at *
  rcases hnormal.eq_or_lt with rfl | hlt
  · have := Nat.mul_le_mul_right den hinf
    rw [show magOf (2 ^ 23) = 2 ^ 23 by decide] at this
    omega
  · have hgap := magOf_gap (b := b - 1) (by omega)
    rw [Nat.sub_add_cancel (by omega)] at hgap
    have hprev : magOf (b - 1) ≤ magOf b := magOf_le_iff.2 (by omega)
    have hnum : magOf (b - 1) * den ≤ num := by
      have := Nat.mul_le_mul_right den hprev
      rw [add_mul] at hlow
      omega
    calc 2 ^ 23 * (fMag (roundF neg num den) * den) ≤ 2 ^ 23 * magOf b * den := by
          rw [← mul_assoc]; gcongr
      _ ≤ (2 ^ 23 + 1) * magOf (b - 1) * den := Nat.mul_le_mul_right _ hgap
      _ ≤ (2 ^ 23 + 1) * num := by rw [mul_assoc]; exact Nat.mul_le_mul_left _ hnum

theorem fMag_fMul_le {x y a b c d : F32} (hx : Within a b x) (hy : Within c d y)
    (h : 2 ^ 23 * fUnit ≤ fMag a * fMag c := by decide) :
    2 ^ 23 * (fMag (fMul x y) * fUnit) ≤ (2 ^ 23 + 1) * (fMag x * fMag y) := by
  rw [fMul_pos hx.finite hy.finite hx.sign hy.sign]
  exact fMag_roundF_mul_le fUnit_pos (h.trans (Nat.mul_le_mul hx.lower hy.lower))

theorem fMag_fDiv_le {x y a b c d : F32} (hx : Within a b x) (hy : Within c d y)
    (hc : 0 < fMag c := by decide) (h : 2 ^ 23 * fMag d ≤ fMag a * fUnit := by decide) :
    2 ^ 23 * (fMag (fDiv x y) * fMag y) ≤ (2 ^ 23 + 1) * (fMag x * fUnit) := by
  rw [fDiv_of_within hx hy hc]
  exact fMag_roundF_mul_le (hc.trans_le hy.lower)
    ((Nat.mul_le_mul_left _ hy.upper).trans (h.trans (Nat.mul_le_mul_right _ hx.lower)))

end Sys2Proof.Proofs.Range
end

section
/-! PROOFS. The fixed-point sine and cosine of `00_scope.md` R18 against the exact ones. The idea: a pair (cos, sin) is a complex
number; the Taylor sum is `e^(iy)` up to one rounding per term; and doubling the angle squares the number, which doubles the error
and adds one more rounding. -/

namespace Sys2Proof.Proofs.SineCosine

open Sys2Proof Sys2Proof.Machine Sys2Proof.Proofs.Wavetable

/-! ### Fixed-point numbers as real and complex ones -/

/-- `fixOne` as a real number; irreducible, so that no tactic computes with its digits. -/
@[irreducible] noncomputable def fixReal : ℝ := 2 ^ 512

theorem cast_fixOne : (fixOne : ℝ) = fixReal := by
  unfold fixOne fixReal
  exact Nat.cast_pow 2 512

theorem fixReal_eq {m n : Nat} (h : m + n = 512) : fixReal = 2 ^ m * 2 ^ n := by
  unfold fixReal
  rw [← pow_add, h]

theorem fixReal_pos : 0 < fixReal := by
  unfold fixReal
  exact pow_pos two_pos 512

/-- The complex number of a fixed-point pair (cos, sin). -/
noncomputable def toComplex (z : Int × Int) : ℂ := ⟨z.1 / fixReal, z.2 / fixReal⟩

/-- An integer division loses less than one. -/
theorem abs_ediv_sub_div_le (a : Int) {d : Nat} (hd : 0 < d) : |((a / d : Int) : ℝ) - a / d| ≤ 1 := by
  have hd' : (0 : ℝ) < d := by exact_mod_cast hd
  have hsplit : (a : ℝ) = d * (a / d : Int) + (a % d : Int) := by exact_mod_cast (Int.mul_ediv_add_emod a d).symm
  have hlo : (0 : ℝ) ≤ (a % d : Int) := by exact_mod_cast Int.emod_nonneg a (by omega)
  have hhi : ((a % d : Int) : ℝ) ≤ d := by exact_mod_cast (Int.emod_lt_of_pos a (by omega)).le
  have hrem : (a : ℝ) / d = (a / d : Int) + ((a % d : Int) : ℝ) / d := by
    conv_lhs => rw [hsplit, add_div, mul_div_cancel_left₀ _ hd'.ne']
  rw [hrem, sub_add_cancel_left, abs_neg, abs_of_nonneg (by positivity)]
  exact (div_le_one hd').2 hhi

/-! ### The Taylor sum -/

theorem toComplex_expISum_succ (f n t y : Nat) :
    toComplex (expISum (f + 1) n t y) =
      ((t / fixReal : ℝ) : ℂ) + toComplex (expISum f (n + 1) (t * y / (fixOne * (n + 1))) y) * Complex.I := by
  rw [expISum]
  generalize expISum f (n + 1) (t * y / (fixOne * (n + 1))) y = r
  apply Complex.ext <;> simp [toComplex]
  ring

/-- The next term of the sum: at an angle of at most `1/2` its error is at most half that of the term before and one rounding. -/
theorem taylorTerm_error {D y : Nat} (hD : 0 < D) (hy : 2 * y ≤ D) (n t : Nat) :
    2 * |((t * y / (D * (n + 1)) : Nat) : ℝ) / D - (y / D : ℝ) ^ (n + 1) / (n + 1).factorial| ≤
      |(t / D : ℝ) - (y / D : ℝ) ^ n / n.factorial| + 2 / D := by
  have hD' : (0 : ℝ) < D := by exact_mod_cast hD
  have hround := abs_ediv_sub_div_le (t * y : Nat) (d := D * (n + 1)) (by positivity)
  rw [← Int.natCast_ediv, Int.cast_natCast, Int.cast_natCast] at hround
  have hratio : |(2 * (y / D / (n + 1)) : ℝ)| ≤ 1 := by
    have hy' : 2 * (y : ℝ) ≤ D := by exact_mod_cast hy
    rw [abs_of_nonneg (by positivity), div_div, mul_div_assoc', div_le_one (by positivity)]
    exact hy'.trans (le_mul_of_one_le_right hD'.le (by simp))
  have hsplit : 2 * (((t * y / (D * (n + 1)) : Nat) : ℝ) / D - (y / D : ℝ) ^ (n + 1) / (n + 1).factorial) =
      ((t / D : ℝ) - (y / D : ℝ) ^ n / n.factorial) * (2 * (y / D / (n + 1))) +
      2 / D * (((t * y / (D * (n + 1)) : Nat) : ℝ) - (t * y : Nat) / (D * (n + 1) : Nat)) := by
    rw [Nat.factorial_succ, pow_succ]
    push_cast
    field_simp
    ring
  rw [show ∀ x : ℝ, 2 * |x| = |2 * x| from fun x => by rw [abs_mul, abs_two], hsplit]
  refine (abs_add_le _ _).trans (add_le_add ?_ ?_)
  · rw [abs_mul]
    exact mul_le_of_le_one_right (abs_nonneg _) hratio
  · rw [abs_mul, abs_of_pos (div_pos two_pos hD')]
    exact mul_le_of_le_one_right (div_pos two_pos hD').le hround

/-- From the term `t` on, `f` terms of the fixed-point sum are those of `e^(iy)` up to twice the error of `t` and two roundings per
term. -/
theorem expISum_error {y : Nat} (hy : 2 * y ≤ fixOne) (f n t : Nat) :
    ‖toComplex (expISum f n t y) * Complex.I ^ n -
        ∑ m ∈ Finset.range f, ((y / fixReal : ℝ) * Complex.I) ^ (n + m) / (n + m).factorial‖ ≤
      2 * |(t / fixReal : ℝ) - (y / fixReal : ℝ) ^ n / n.factorial| + 2 * f / fixReal := by
  induction f generalizing n t with
  | zero => simp [expISum, toComplex, show (⟨0, 0⟩ : ℂ) = 0 from rfl]
  | succ f ih =>
    have hterm := taylorTerm_error fixOne_pos hy n t
    rw [cast_fixOne] at hterm
    have hrest := ih (n + 1) (t * y / (fixOne * (n + 1)))
    rw [Finset.sum_range_succ', toComplex_expISum_succ]
    generalize toComplex (expISum f (n + 1) (t * y / (fixOne * (n + 1))) y) = r at hrest ⊢
    generalize ((t * y / (fixOne * (n + 1)) : Nat) : ℝ) = t' at hterm hrest
    have hsplit : ((t / fixReal : ℝ) + r * Complex.I) * Complex.I ^ n -
          (∑ m ∈ Finset.range f, ((y / fixReal : ℝ) * Complex.I) ^ (n + (m + 1)) / (n + (m + 1)).factorial +
            ((y / fixReal : ℝ) * Complex.I) ^ (n + 0) / (n + 0).factorial) =
        (((t / fixReal : ℝ) - (y / fixReal : ℝ) ^ n / n.factorial : ℝ) : ℂ) * Complex.I ^ n +
        (r * Complex.I ^ (n + 1) -
          ∑ m ∈ Finset.range f, ((y / fixReal : ℝ) * Complex.I) ^ (n + 1 + m) / (n + 1 + m).factorial) := by
      simp only [add_zero, add_assoc, add_comm 1]
      push_cast
      ring
    rw [hsplit]
    refine (norm_add_le _ _).trans ((add_le_add_right hrest _).trans ?_)
    rw [norm_mul, norm_pow, Complex.norm_I, one_pow, mul_one, Complex.norm_real, Real.norm_eq_abs, Nat.cast_succ, mul_add,
      add_div]
    linarith only [hterm]

/-- What the sum leaves out, at an angle of at most `2^-8`, is less than a rounding. -/
theorem taylorTail_le {x : ℝ} (h0 : 0 ≤ x) (h : x ≤ 1 / 2 ^ 8) : x ^ 48 / (Nat.factorial 48) * 2 ≤ 1 / fixReal :=
  calc x ^ 48 / (Nat.factorial 48) * 2 ≤ (1 / 2 ^ 8) ^ 48 / (Nat.factorial 48) * 2 := by gcongr
    _ ≤ 1 / (2 ^ 256 * 2 ^ 256) := by norm_num [Nat.factorial]
    _ = 1 / fixReal := by rw [fixReal_eq (m := 256) (n := 256) rfl]

/-- The whole sum, at an angle of at most `2^-8`. -/
theorem expISum_error_exp {y : Nat} (hy : (y : ℝ) / fixReal ≤ 1 / 2 ^ 8) :
    ‖toComplex (expISum 48 0 fixOne y) - Complex.exp ((y / fixReal : ℝ) * Complex.I)‖ ≤ 97 / fixReal := by
  have hD := fixReal_pos
  have hnorm : ‖((y / fixReal : ℝ) * Complex.I : ℂ)‖ = (y / fixReal : ℝ) := by
    rw [norm_mul, Complex.norm_I, mul_one, Complex.norm_real, Real.norm_of_nonneg (by positivity)]
  have hhalf : 2 * y ≤ fixOne := by
    have : 2 * (y : ℝ) ≤ (fixOne : ℝ) := by
      rw [cast_fixOne]
      rw [div_le_iff₀ hD] at hy
      linarith
    exact_mod_cast this
  have hsum := expISum_error hhalf 48 0 fixOne
  simp only [zero_add, pow_zero, mul_one, Nat.factorial_zero, Nat.cast_one, div_one, cast_fixOne, div_self hD.ne', sub_self,
    abs_zero, mul_zero] at hsum
  have htail := Complex.exp_bound' (x := (y / fixReal : ℝ) * Complex.I) (n := 48) (by
    rw [hnorm, div_le_iff₀ (by positivity)]
    exact hy.trans (by norm_num))
  rw [hnorm, norm_sub_rev] at htail
  calc _ ≤ _ := norm_sub_le_norm_sub_add_norm_sub _ _ _
    _ ≤ _ := add_le_add hsum (htail.trans (taylorTail_le (div_nonneg y.cast_nonneg hD.le) hy))
    _ = 97 / fixReal := by push_cast; ring

/-! ### Doubling the angle -/

/-- A doubling squares the number, up to one rounding in each part. -/
theorem toComplex_square_error (z : Int × Int) :
    ‖toComplex ((z.1 * z.1 - z.2 * z.2) / fixOne, (2 * z.1 * z.2) / fixOne) - toComplex z ^ 2‖ ≤ 2 / fixReal := by
  have hpart : ∀ a : Int, |((a / fixOne : Int) : ℝ) / fixReal - a / fixReal / fixReal| ≤ 1 / fixReal := fun a => by
    have hround := abs_ediv_sub_div_le a fixOne_pos
    rw [cast_fixOne] at hround
    rw [← sub_div, abs_div, abs_of_pos fixReal_pos]
    exact div_le_div_of_nonneg_right hround fixReal_pos.le
  have hre : (toComplex z ^ 2).re = ((z.1 * z.1 - z.2 * z.2 : Int) : ℝ) / fixReal / fixReal := by
    simp [toComplex, pow_two]; ring
  have him : (toComplex z ^ 2).im = ((2 * z.1 * z.2 : Int) : ℝ) / fixReal / fixReal := by
    simp [toComplex, pow_two]; ring
  refine (Complex.norm_le_abs_re_add_abs_im _).trans ?_
  rw [Complex.sub_re, Complex.sub_im, hre, him, show (2 : ℝ) / fixReal = 1 / fixReal + 1 / fixReal by ring]
  exact add_le_add (hpart _) (hpart _)

/-- Each doubling squares the factor that bounds the error; the unit `2 / fixReal` carried in the bound pays for the roundings. -/
theorem doubleAngle_error {w : ℂ} (hw : ‖w‖ = 1) {A : ℝ} (k : Nat) (z : Int × Int)
    (h : ‖toComplex z - w‖ + 2 / fixReal ≤ A - 1) :
    ‖toComplex (doubleAngle k z) - w ^ 2 ^ k‖ + 2 / fixReal ≤ A ^ 2 ^ k - 1 := by
  induction k generalizing z w A with
  | zero => simpa [doubleAngle] using h
  | succ k ih =>
    have hround := toComplex_square_error z
    have htri := norm_sub_le_norm_sub_add_norm_sub
      (toComplex ((z.1 * z.1 - z.2 * z.2) / fixOne, (2 * z.1 * z.2) / fixOne)) (toComplex z ^ 2) (w ^ 2)
    have hsquare : ‖toComplex z ^ 2 - w ^ 2‖ ≤ ‖toComplex z - w‖ * (‖toComplex z - w‖ + 2) := by
      rw [show toComplex z ^ 2 - w ^ 2 = (toComplex z - w) * (toComplex z - w + 2 * w) by ring, norm_mul]
      gcongr
      refine (norm_add_le _ _).trans_eq ?_
      rw [norm_mul, hw, mul_one, Complex.norm_ofNat]
    have hunit : 0 < 2 / fixReal := div_pos two_pos fixReal_pos
    have hstep : ‖toComplex ((z.1 * z.1 - z.2 * z.2) / fixOne, (2 * z.1 * z.2) / fixOne) - w ^ 2‖ + 2 / fixReal ≤
        A ^ 2 - 1 := by
      have h0 := norm_nonneg (toComplex z - w)
      generalize ‖toComplex z - w‖ = e at *
      generalize (2 : ℝ) / fixReal = u at *
      have hA : (1 + e + u) * (1 + e + u) ≤ A * A := mul_self_le_mul_self (by linarith) (by linarith)
      nlinarith
    have hrest := ih (w := w ^ 2) (by rw [norm_pow, hw, one_pow]) _ hstep
    rwa [← pow_mul, ← pow_mul, ← pow_succ'] at hrest

/-! ### Sine and cosine of an angle -/

theorem halvings_le {mag b : Nat} (h : mag < 2 ^ b) : halvings mag ≤ b + 8 - 149 := by
  have hlog : Nat.log2 mag ≤ b - 1 := by
    rcases Nat.eq_zero_or_pos mag with rfl | h0
    · simp
    · exact Nat.le_sub_one_of_lt ((Nat.log2_lt h0.ne').2 h)
  unfold halvings
  omega

theorem lt_two_pow_halvings (mag : Nat) : mag < 2 ^ (halvings mag + 141) :=
  Nat.lt_log2_self.trans_le (Nat.pow_le_pow_right two_pos (by unfold halvings; omega))

/-- The halvings lose nothing of the angle and bring it to at most `2^-8`. -/
theorem halved_angle {mag : Nat} (h : halvings mag ≤ 137) :
    (2 : ℝ) ^ halvings mag * ((mag * 2 ^ 363 / 2 ^ halvings mag : Nat) / fixReal) = mag / 2 ^ 149 ∧
      ((mag * 2 ^ 363 / 2 ^ halvings mag : Nat) : ℝ) / fixReal ≤ 1 / 2 ^ 8 := by
  have hdvd : 2 ^ halvings mag ∣ mag * 2 ^ 363 := (pow_dvd_pow 2 (h.trans (by norm_num))).mul_left _
  have hlt : (mag : ℝ) ≤ 2 ^ halvings mag * 2 ^ 141 := by
    have := (lt_two_pow_halvings mag).le
    rw [pow_add] at this
    exact_mod_cast this
  have hangle : (2 : ℝ) ^ halvings mag * ((mag * 2 ^ 363 / 2 ^ halvings mag : Nat) / fixReal) = mag / 2 ^ 149 := by
    rw [Nat.cast_div hdvd (by positivity), fixReal_eq (m := 149) (n := 363) rfl, Nat.cast_mul, Nat.cast_pow, Nat.cast_pow,
      Nat.cast_ofNat, div_div, ← mul_assoc, mul_div_mul_right _ _ (by positivity), mul_div_assoc',
      mul_div_mul_left _ _ (by positivity)]
  refine ⟨hangle, ?_⟩
  have hpos : (0 : ℝ) < 2 ^ halvings mag := by positivity
  refine le_of_mul_le_mul_left (hangle.trans_le ?_) hpos
  rw [div_le_iff₀ (by positivity)]
  refine hlt.trans_eq ?_
  rw [mul_assoc]
  norm_num

/-- The error after at most 137 doublings. -/
theorem doubling_growth {k : Nat} (hk : k ≤ 137) : (1 + 99 / fixReal) ^ 2 ^ k - 1 ≤ 1 / 2 ^ 367 := by
  have hpos : 0 ≤ 99 / fixReal := div_nonneg (by norm_num) fixReal_pos.le
  have hunit : 99 / fixReal ≤ 2 ^ 7 / fixReal := div_le_div_of_nonneg_right (by norm_num) fixReal_pos.le
  have harg : (2 : ℝ) ^ k * (99 / fixReal) ≤ 1 / 2 ^ 368 :=
    calc (2 : ℝ) ^ k * (99 / fixReal) ≤ 2 ^ 137 * (2 ^ 7 / fixReal) :=
          mul_le_mul (pow_le_pow_right₀ one_le_two hk) hunit hpos (by positivity)
      _ = 1 / 2 ^ 368 := by
        rw [fixReal_eq (m := 144) (n := 368) rfl, mul_div_assoc', ← pow_add, div_mul_eq_div_div, div_self (by positivity)]
  have harg0 : 0 ≤ (2 : ℝ) ^ k * (99 / fixReal) := mul_nonneg (by positivity) hpos
  have hexp := Real.abs_exp_sub_one_le (x := (2 : ℝ) ^ k * (99 / fixReal)) (by
    rw [abs_of_nonneg harg0]
    exact harg.trans (div_le_one_of_le₀ (one_le_pow₀ one_le_two) (by positivity)))
  rw [abs_of_nonneg harg0] at hexp
  calc (1 + 99 / fixReal) ^ 2 ^ k - 1 ≤ Real.exp (99 / fixReal) ^ 2 ^ k - 1 := by
        gcongr
        rw [add_comm]
        exact Real.add_one_le_exp _
    _ = Real.exp (2 ^ k * (99 / fixReal)) - 1 := by rw [← Real.exp_nat_mul, Nat.cast_pow, Nat.cast_ofNat]
    _ ≤ 2 * (2 ^ k * (99 / fixReal)) := (le_abs_self _).trans hexp
    _ ≤ 2 * (1 / 2 ^ 368) := by gcongr
    _ = 1 / 2 ^ 367 := by rw [pow_succ _ 367, mul_comm _ (2 : ℝ), mul_one_div, div_mul_cancel_left₀ two_ne_zero, one_div]

/-- R18: the fixed-point cosine and sine of a finite magnitude are the exact ones up to 2^-367, at every magnitude that
needs at most 137 halvings (every finite one). -/
theorem cosSinOf_error {mag : Nat} (h : halvings mag ≤ 137) :
    ‖toComplex (cosSinOf mag) - Complex.exp ((mag / 2 ^ 149 : ℝ) * Complex.I)‖ ≤ 1 / 2 ^ 367 := by
  obtain ⟨hangle, hsmall⟩ := halved_angle h
  unfold cosSinOf cosSin
  generalize mag * 2 ^ 363 / 2 ^ halvings mag = y at *
  have hbase := expISum_error_exp hsmall
  have hdouble := doubleAngle_error (Complex.norm_exp_ofReal_mul_I (y / fixReal)) (A := 1 + 99 / fixReal) (halvings mag)
    (expISum 48 0 fixOne y) (by
      rw [add_sub_cancel_left, show (99 : ℝ) / fixReal = 97 / fixReal + 2 / fixReal by ring]
      gcongr)
  have hexp : ((2 ^ halvings mag : Nat) : ℂ) * ((y / fixReal : ℝ) * Complex.I) = (mag / 2 ^ 149 : ℝ) * Complex.I := by
    rw [← mul_assoc, ← hangle]
    push_cast
    rfl
  rw [← Complex.exp_nat_mul, hexp] at hdouble
  exact (le_add_of_nonneg_right (div_pos two_pos fixReal_pos).le).trans (hdouble.trans (doubling_growth h))

end Sys2Proof.Proofs.SineCosine
end

section
/-! PROOFS. The statements of `43_filter.md`: the filter's history, and its coefficients. The idea of the second: the design angle lies
between `2^-13` and `3.14`, where the sine is far above the error of the fixed point; so `alpha` is not negative, `a0` is at least
`1.0`, and dividing by it makes no value larger. -/

namespace Sys2Proof.Proofs.Filter

open Sys2Proof Sys2Proof.Machine Sys2Proof.Laws Sys2Proof.Proofs.Wavetable Sys2Proof.Proofs.Oscillator Sys2Proof.Proofs.Range
open Sys2Proof.Proofs.SineCosine

/-! ### The history -/

theorem filterOut_of_finite {v : Voice} {x : F32} (h : isFinite (filterSum v x) = true) : filterOut v x = filterSum v x :=
  if_pos h

theorem filterStep_of_finite {v : Voice} {x : F32} (h : isFinite (filterSum v x) = true) :
    filterStep v x = { v with x1 := x, x2 := v.x1, y1 := filterSum v x, y2 := v.y1 } :=
  if_pos h

theorem filterOut_of_not_finite {v : Voice} {x : F32} (h : isFinite (filterSum v x) = false) : filterOut v x = 0#32 :=
  if_neg (Bool.eq_false_iff.1 h)

theorem filterStep_of_not_finite {v : Voice} {x : F32} (h : isFinite (filterSum v x) = false) :
    filterStep v x = clearHistory v :=
  if_neg (Bool.eq_false_iff.1 h)

/-- Settles O33: the sum of R126 is `filterSum`, and its finiteness decides. -/
theorem filterShiftsOrClearsItsHistory : Obligations.FilterShiftsOrClearsItsHistory := fun _ _ =>
  ⟨fun h => ⟨filterOut_of_finite h, filterStep_of_finite h⟩,
    fun h => ⟨filterOut_of_not_finite h, filterStep_of_not_finite h⟩⟩

/-! ### The sine below pi -/

/-- Between `2^-13` and `3.14` the sine is well above zero. -/
theorem sin_lower {θ : ℝ} (h0 : 1 / 2 ^ 13 ≤ θ) (h1 : θ ≤ 3.14) : 1 / 2 ^ 15 ≤ Real.sin θ := by
  have hpi := Real.pi_gt_d4
  have hhalf : ∀ x : ℝ, 1 / 2 ^ 13 ≤ x → x ≤ Real.pi / 2 → 1 / 2 ^ 15 ≤ Real.sin x := fun x hx hx' => by
    have hjordan := Real.mul_le_sin (by linarith) hx'
    have hslope : 1 / 2 ≤ 2 / Real.pi := by
      rw [div_le_div_iff₀ two_pos Real.pi_pos]
      linarith [Real.pi_le_four]
    nlinarith
  rcases le_total θ (Real.pi / 2) with h | h
  · exact hhalf θ h0 h
  · rw [← Real.sin_pi_sub]
    exact hhalf _ (by linarith) (by linarith)

theorem fsin_cr {p : Params} (hp : p.transcendental = .cr) {x : F32} (hx : isFinite x = true) : fsin p x = sinCR x := by
  simp [fsin, hp, hx]

theorem fcos_cr {p : Params} (hp : p.transcendental = .cr) {x : F32} (hx : isFinite x = true) : fcos p x = cosCR x := by
  simp [fcos, hp, hx]

theorem atMost_crFix {v : Int} (h : v.natAbs ≤ fixOne) : AtMost 1 (crFix v) :=
  atMost_iff_unit.2 (crQuot_mem_unit fixOne_pos h)

theorem atMost_sinCR (x : F32) : AtMost 1 (sinCR x) := by
  have h := natAbs_fixUnit_le (cosSinOf (fMag x)).2
  unfold sinCR
  dsimp only
  split
  · exact atMost_crFix ((Int.natAbs_neg _).trans_le h)
  · exact atMost_crFix h

theorem atMost_cosCR (x : F32) : AtMost 1 (cosCR x) := atMost_crFix (natAbs_fixUnit_le _)

theorem cosSinOf_snd_nonneg {mag : Nat} (h0 : fUnit ≤ 2 ^ 13 * mag) (h1 : 100 * mag ≤ 314 * fUnit) :
    0 ≤ (cosSinOf mag).2 := by
  have hlo : (1 : ℝ) / 2 ^ 13 ≤ mag / 2 ^ 149 := by
    have : ((2 : ℝ) ^ 149) ≤ 2 ^ 13 * mag := by exact_mod_cast h0
    rw [div_le_div_iff₀ (by positivity) (by positivity)]
    linarith
  have hhi : (mag : ℝ) / 2 ^ 149 ≤ 3.14 := by
    have : 100 * (mag : ℝ) ≤ 314 * 2 ^ 149 := by exact_mod_cast h1
    rw [div_le_iff₀ (by positivity)]
    linarith
  have hmag : mag < 2 ^ 152 := lt_of_le_of_lt (b := 4 * fUnit) (by omega) (by decide)
  have herr := (Complex.abs_im_le_norm _).trans (cosSinOf_error ((halvings_le hmag).trans (by norm_num)))
  rw [Complex.sub_im, Complex.exp_ofReal_mul_I_im] at herr
  have hsin := sin_lower hlo hhi
  have hsmall : (1 : ℝ) / 2 ^ 367 ≤ 1 / 2 ^ 15 := one_div_pow_le_one_div_pow_of_le one_le_two (by norm_num)
  have him : 0 ≤ ((cosSinOf mag).2 : ℝ) / fixReal := by
    have hlower := (abs_le.1 herr).1
    show 0 ≤ (toComplex (cosSinOf mag)).im
    generalize (1 : ℝ) / 2 ^ 367 = ε at *
    linarith
  rw [le_div_iff₀ fixReal_pos, zero_mul] at him
  exact_mod_cast him

/-- The sine of an angle between `2^-13` and `3.14` is not negative. -/
theorem fSign_sinCR {x : F32} (hs : fSign x = false) (h0 : fUnit ≤ 2 ^ 13 * fMag x) (h1 : 100 * fMag x ≤ 314 * fUnit) :
    fSign (sinCR x) = false := by
  have h := cosSinOf_snd_nonneg h0 h1
  have hfix : 0 ≤ fixUnit (cosSinOf (fMag x)).2 := by unfold fixUnit; omega
  simp [sinCR, hs, crFix_eq_crQuot, hfix]

/-! ### The design angle -/

/-- `2π * 0.49` and its three roundings stay below `3.14`. -/
theorem angle_const : 100 * ((2 ^ 23 + 1) ^ 3 * (fMag twoPi * fMag 0x3EFAE148#32)) ≤ 314 * fUnit * (2 ^ 69 * fUnit) := by
  decide

/-- Three roundings, each of at most one part in `2^23`. -/
theorem three_roundings {w m l f t g u C : Nat} (hu : 0 < u) (hf : 0 < f)
    (h1 : 2 ^ 23 * (w * f) ≤ (2 ^ 23 + 1) * (m * u)) (h2 : 2 ^ 23 * (m * u) ≤ (2 ^ 23 + 1) * (t * l))
    (h3 : 2 ^ 23 * (l * u) ≤ (2 ^ 23 + 1) * (g * f)) (hC : 100 * ((2 ^ 23 + 1) ^ 3 * (t * g)) ≤ C * (2 ^ 69 * u)) :
    100 * w ≤ C := by
  have hpos : 0 < 2 ^ 69 * u * f := by positivity
  refine Nat.le_of_mul_le_mul_right ?_ hpos
  calc 100 * w * (2 ^ 69 * u * f) = 100 * 2 ^ 46 * u * (2 ^ 23 * (w * f)) := by ring
    _ ≤ 100 * 2 ^ 46 * u * ((2 ^ 23 + 1) * (m * u)) := Nat.mul_le_mul_left _ h1
    _ = 100 * 2 ^ 23 * (2 ^ 23 + 1) * u * (2 ^ 23 * (m * u)) := by ring
    _ ≤ 100 * 2 ^ 23 * (2 ^ 23 + 1) * u * ((2 ^ 23 + 1) * (t * l)) := Nat.mul_le_mul_left _ h2
    _ = 100 * (2 ^ 23 + 1) ^ 2 * t * (2 ^ 23 * (l * u)) := by ring
    _ ≤ 100 * (2 ^ 23 + 1) ^ 2 * t * ((2 ^ 23 + 1) * (g * f)) := Nat.mul_le_mul_left _ h3
    _ = 100 * ((2 ^ 23 + 1) ^ 3 * (t * g)) * f := by ring
    _ ≤ C * (2 ^ 69 * u) * f := Nat.mul_le_mul_right _ hC
    _ = C * (2 ^ 69 * u * f) := by ring

/-- R123: the design angle lies between `2^-13` (the pattern 0x39000000) and `3.14`: it is at least `120 / 768000`, and above only
its three roundings count. -/
theorem designAngle_spec {p : Params} {fs c : F32} (hguard : p.nyqGuard = 0x3EFAE148#32) (hfs : Within f1000 0x493B8000#32 fs)
    (hc : Within f20 f20000 c) :
    Within 0x39000000#32 0x46800000#32 (designAngle p fs c) ∧ 100 * fMag (designAngle p fs c) ≤ 314 * fUnit := by
  have hg : Within 0x3EFAE148#32 0x3EFAE148#32 0x3EFAE148#32 := within_self
  have ht : Within twoPi twoPi twoPi := within_self
  have hlimit : Within f20 0x493B8000#32 (fMul 0x3EFAE148#32 fs) := within_fMul hg hfs
  have hlimit_le := fMag_fMul_le hg hfs
  obtain ⟨hfw, hfw_le⟩ := within_fMin hc hlimit
  have hprod : Within 0x42F00000#32 0x4B000000#32 (fMul twoPi (fMin c (fMul 0x3EFAE148#32 fs))) := within_fMul ht hfw
  have hprod_le := (fMag_fMul_le ht hfw).trans (Nat.mul_le_mul_left _ (Nat.mul_le_mul_left _ hfw_le))
  have hquot_le := fMag_fDiv_le hprod hfs
  unfold designAngle
  rw [hguard]
  exact ⟨within_fDiv hprod hfs,
    three_roundings fUnit_pos ((show 0 < fMag f1000 by decide).trans_le hfs.lower) hquot_le hprod_le hlimit_le angle_const⟩

/-! ### The coefficients -/

theorem atMost_fMul {x y : F32} {m n : Nat} (hx : AtMost m x) (hy : AtMost n y) (h : m * n < 2 ^ 24) :
    AtMost (m * n) (fMul x y) := by
  obtain ⟨fx, hx⟩ := hx
  obtain ⟨fy, hy⟩ := hy
  rw [fMul_finite fx fy]
  exact atMost_roundF fUnit_pos h ((Nat.mul_le_mul hx hy).trans_eq (by ring))

theorem atMost_fSub {x y : F32} {m n : Nat} (hx : AtMost m x) (hy : AtMost n y) (h : m + n < 2 ^ 24) :
    AtMost (m + n) (fSub x y) := by
  have hneg : AtMost n (fNeg y) := by simpa [AtMost] using hy
  have hsub : fSub x y = fAdd x (fNeg y) := by
    rw [fSub_finite hx.1 hy.1, fAdd_finite hx.1 hneg.1]
    simp [sub_eq_add_neg]
  rw [hsub]
  exact atMost_fAdd hx hneg h

/-- A difference that is not negative has a clear sign bit. -/
theorem fSign_fSub {x y : F32} (hx : isFinite x = true) (hy : isFinite y = true) (hs : fSign x = false)
    (h : fVal y ≤ fVal x) : fSign (fSub x y) = false := by
  rw [fSub_finite hx hy]
  split_ifs
  · simp [hs]
  · simp [h]

/-- Dividing by a value of at least `1.0` makes no value larger. -/
theorem atMost_fDiv_of_one_le {x y : F32} {n : Nat} (hx : AtMost n x) (hn : n < 2 ^ 24) (hy : isFinite y = true)
    (h1 : fUnit ≤ fMag y) : AtMost n (fDiv x y) := by
  obtain ⟨hfin, hmag⟩ := hx
  have hpos := fUnit_pos.trans_le h1
  rw [fDiv_finite hfin hy hpos.ne']
  exact atMost_roundF hpos hn (Nat.mul_le_mul hmag h1)

/-- `1.0` less a value in `[-1, 1]` lies in `[0, 2]`. -/
theorem within_one_fSub {x : F32} (hx : AtMost 1 x) : Within 0#32 fTwo (fSub fOne x) := by
  have hone : AtMost 1 fOne := ⟨isFinite_one, by decide⟩
  obtain ⟨hfin, hmag⟩ := atMost_fSub hone hx (by norm_num)
  have hle := (fLe_iff.1 (atMost_iff_unit.1 hx).2).2.2
  exact ⟨hfin, fSign_fSub isFinite_one hx.1 fSign_one hle, by simp, hmag.trans (by decide)⟩

/-- R123: `alpha` lies between 0 and 8. -/
theorem within_alpha {sn q : F32} (hsn : Within 0#32 fOne sn) (hq : Within fTenth fTen q) :
    Within 0#32 0x41000000#32 (fDiv sn (fMul fTwo q)) := by
  have hden : Within 0x3E4CCCCD#32 f20 (fMul fTwo q) := within_fMul within_self hq
  exact within_fDiv hsn hden

/-- The coefficients from a sine in `[0, 1]`, a cosine in `[-1, 1]` and a legal Q: `a0` lies between 1 and 9, and no coefficient is
larger than its dividend. -/
theorem coeffStep_spec {p : Params} {b : Bank} {fs : F32} {v : Voice}
    (hsn : Within 0#32 fOne (fsin p (designAngle p fs v.cutoffEff))) (hcs : AtMost 1 (fcos p (designAngle p fs v.cutoffEff)))
    (hq : Within fTenth fTen b.resonance) :
    Within 0#32 fOne (coeffStep p b fs v).b0 ∧ Within 0#32 fTwo (coeffStep p b fs v).b1 ∧
      AtMost 2 (coeffStep p b fs v).a1 ∧ AtMost 9 (coeffStep p b fs v).a2 := by
  unfold coeffStep
  dsimp only
  generalize fsin p (designAngle p fs v.cutoffEff) = sn at *
  generalize fcos p (designAngle p fs v.cutoffEff) = cs at *
  have halpha := within_alpha hsn hq
  have ha0 : Within fOne 0x41100000#32 (fAdd fOne (fDiv sn (fMul fTwo b.resonance))) := within_fAdd within_self halpha
  have hunit := fMag_one.symm.trans_le ha0.lower
  have ht := within_one_fSub hcs
  have hhalf : Within 0#32 fOne (fMul (fSub fOne cs) fHalf) := within_fMul ht within_self
  have hdouble : AtMost 2 (fMul 0xC0000000#32 cs) :=
    atMost_fMul (m := 2) (n := 1) ⟨by decide, by decide⟩ hcs (by norm_num)
  have hrest : AtMost 9 (fSub fOne (fDiv sn (fMul fTwo b.resonance))) :=
    atMost_fSub (m := 1) (n := 8) ⟨by decide, by decide⟩ ⟨halpha.finite, halpha.upper.trans (by decide)⟩ (by norm_num)
  exact ⟨within_fDiv hhalf ha0, within_fDiv ht ha0,
    atMost_fDiv_of_one_le hdouble (by norm_num) ha0.finite hunit,
    atMost_fDiv_of_one_le hrest (by norm_num) ha0.finite hunit⟩

/-- Settles O43: the sine of the design angle lies in `[0, 1]`, so no coefficient is divided by less than `1.0`. -/
theorem filterCoefficientsAreFinite : Obligations.FilterCoefficientsAreFinite := by
  intro p b fs v hp hguard hlo hhi hq hc
  have hfs : Within f1000 0x493B8000#32 fs := within_of_between (Bool.and_eq_true_iff.2 ⟨hlo, hhi⟩)
  obtain ⟨hangle, hupper⟩ := designAngle_spec hguard hfs (within_of_between hc)
  have hsn : Within 0#32 fOne (fsin p (designAngle p fs v.cutoffEff)) := by
    obtain ⟨hfin, hmag⟩ := atMost_sinCR (designAngle p fs v.cutoffEff)
    rw [fsin_cr hp hangle.finite]
    exact ⟨hfin, fSign_sinCR hangle.sign ((show fUnit ≤ 2 ^ 13 * fMag 0x39000000#32 by decide).trans
      (Nat.mul_le_mul_left _ hangle.lower)) hupper, by simp, hmag.trans (by decide)⟩
  have hcs : AtMost 1 (fcos p (designAngle p fs v.cutoffEff)) := by
    rw [fcos_cr hp hangle.finite]
    exact atMost_cosCR _
  obtain ⟨hb0, hb1, ha1, ha2⟩ := coeffStep_spec hsn hcs (within_of_between hq)
  exact ⟨hb0.finite, hb1.finite, hb0.finite, ha1.1, ha2.1, fVal_nonneg_of_pos hb0.sign, rfl⟩

end Sys2Proof.Proofs.Filter
end
